-- ==== Sys2Proof/Word.lean ====
section
/-! DEFINITION. The words of the block's ports and buffer (30_encoding.md R62, R69; 10_state.md R21). -/

namespace Sys2Proof

/-- One byte of the buffer `BUF` (R21). -/
abbrev Byte := BitVec 8

/-- The 32-bit operand `ARG` and the 32-bit result `DATA` (R62, R69). -/
abbrev Word32 := BitVec 32

/-- A 64-bit command word `CMD` (R62). -/
abbrev CmdWord := BitVec 64

/-- A 40-bit response word `RSP` (R69). -/
abbrev RspWord := BitVec 40

end Sys2Proof
end

