-- ==== Sys2Proof/Syntax.lean ====
section
/-! DEFINITION. The syntax of the eleven commands (30_encoding.md R64, R66). -/

namespace Sys2Proof

/-- The table select `t = TSEL` (R16, R64): 0 is the 7-bit table, 1 the 5-bit table. -/
inductive TSel where
  /-- `TSEL = 0`: the 7-bit table of track 0. -/
  | seven
  /-- `TSEL = 1`: the 5-bit table of tracks 1 and 2. -/
  | five
  deriving DecidableEq, Repr

/-- `width(t)`, the codeword width (R16). -/
def TSel.width : TSel → Nat
  | .seven => 7
  | .five => 5

/-- `count(t)`, the number of entries of the table (R16). -/
def TSel.count : TSel → Nat
  | .seven => 64
  | .five => 16

/-- The commands of the opcode map (R66), with their operands assembled as R64 says. -/
inductive Instr where
  /-- RD: read `n` bits (R91). -/
  | rd (n : Nat)
  /-- WR: write the low `n` bits of `value` (R93). -/
  | wr (n : Nat) (value : Word32)
  /-- SEEK: move the cursor by `sext_32(arg)` bits (R95). -/
  | seek (arg : Word32)
  /-- POS: answer `CURSOR` (R97). -/
  | pos
  /-- LEN: answer `LEN` (R98). -/
  | len
  /-- CLR: empty the codec (R99). -/
  | clr
  /-- ENC: character to codeword (R115). -/
  | enc (t : TSel) (ch : Word32)
  /-- DEC: codeword to character (R116). -/
  | dec (t : TSel) (word : Word32)
  /-- LRCCLR: clear the LRC accumulator (R129). -/
  | lrcclr
  /-- LRCADD: fold one character's codeword into the accumulator (R130). -/
  | lrcadd (t : TSel) (ch : Word32)
  /-- LRCGET: answer the LRC word (R131). -/
  | lrcget (t : TSel)
  deriving DecidableEq, Repr

end Sys2Proof
end

