-- ==== Sys2Proof/WellFormed.lean ====
section
/-! DEFINITION. Which terms of `Instr` a command word can express (00_scope.md R9, 30_encoding.md R64). -/

namespace Sys2Proof

/-- The widths a command can carry: 1 to 32 bits (R9, R64; 93_implementation_defined.md U1). -/
def widthOk (n : Nat) : Bool :=
  decide (1 ≤ n) && decide (n ≤ 32)

/-- The check on an instruction: RD and WR move 1 to 32 bits, every other operand is right by its type. -/
def Instr.wellFormed : Instr → Bool
  | .rd n => widthOk n
  | .wr n _ => widthOk n
  | .seek _ => true
  | .pos => true
  | .len => true
  | .clr => true
  | .enc _ _ => true
  | .dec _ _ => true
  | .lrcclr => true
  | .lrcadd _ _ => true
  | .lrcget _ => true

/-- `Instr.wellFormed` as a proposition. -/
abbrev Instr.WellFormed (i : Instr) : Prop :=
  i.wellFormed = true

end Sys2Proof
end

