-- ==== Sys2Proof/Decode.lean ====
section
/-! DEFINITION. The command word (30_encoding.md R62 to R68): its fields, the opcode map, the decoder, and after it
the encoder and the opcode map as rows of match and mask. -/

namespace Sys2Proof

/-- `OP = CMD[63:56]` (R62). -/
def cmdOp (w : CmdWord) : BitVec 8 := w.extractLsb' 56 8

/-- `MOD = CMD[55:48]` (R62). -/
def cmdMod (w : CmdWord) : BitVec 8 := w.extractLsb' 48 8

/-- `RSV = CMD[47:32]` (R62). -/
def cmdRsv (w : CmdWord) : BitVec 16 := w.extractLsb' 32 16

/-- `ARG = CMD[31:0]` (R62). -/
def cmdArg (w : CmdWord) : Word32 := w.extractLsb' 0 32

/-- The three formats, which differ in how `MOD` is read (R63). -/
inductive Format where
  /-- Format N: `MOD[4:0]` is `NM1`. -/
  | n
  /-- Format T: `MOD[0]` is `TSEL`. -/
  | t
  /-- Format Z: no modifier. -/
  | z
  deriving DecidableEq, Repr

/-- The bits of `MOD` that the format says must be 0 (R63). -/
def Format.modMustBeZero : Format → BitVec 8
  | .n => 0xE0
  | .t => 0xFE
  | .z => 0xFF

/-- The eleven operations of the opcode map (R66). -/
inductive Opcode where
  | rd
  | wr
  | seek
  | pos
  | len
  | clr
  | enc
  | dec
  | lrcclr
  | lrcadd
  | lrcget
  deriving DecidableEq, Repr

/-- The operations in the order of the opcode map. -/
def opcodes : List Opcode :=
  [.rd, .wr, .seek, .pos, .len, .clr, .enc, .dec, .lrcclr, .lrcadd, .lrcget]

/-- The column `OP` of R66. -/
def Opcode.code : Opcode → BitVec 8
  | .rd => 0x01
  | .wr => 0x02
  | .seek => 0x03
  | .pos => 0x04
  | .len => 0x05
  | .clr => 0x06
  | .enc => 0x10
  | .dec => 0x11
  | .lrcclr => 0x12
  | .lrcadd => 0x13
  | .lrcget => 0x14

/-- The operation with a given `OP`, if R66 lists it. -/
def Opcode.ofCode (op : BitVec 8) : Option Opcode :=
  opcodes.find? fun o => o.code == op

/-- The column `format` of R66. -/
def Opcode.format : Opcode → Format
  | .rd => .n
  | .wr => .n
  | .seek => .z
  | .pos => .z
  | .len => .z
  | .clr => .z
  | .enc => .t
  | .dec => .t
  | .lrcclr => .z
  | .lrcadd => .t
  | .lrcget => .t

/-- The column `ARG` of R66: whether `ARG` must be zero (R65). -/
def Opcode.argMustBeZero : Opcode → Bool
  | .rd => true
  | .wr => false
  | .seek => false
  | .pos => true
  | .len => true
  | .clr => true
  | .enc => false
  | .dec => false
  | .lrcclr => true
  | .lrcadd => false
  | .lrcget => true

/-- `n = NM1 + 1` with `NM1 = MOD[4:0]` (R63, R64). -/
def modWidth (md : BitVec 8) : Nat :=
  (md.extractLsb' 0 5).toNat + 1

/-- `t = TSEL = MOD[0]` (R63, R64). -/
def modTSel (md : BitVec 8) : TSel :=
  if md.getLsbD 0 then .five else .seven

/-- The instruction an operation stands for, its operands assembled from `MOD` and `ARG` (R64). -/
def Opcode.instr (o : Opcode) (md : BitVec 8) (arg : Word32) : Instr :=
  match o with
  | .rd => .rd (modWidth md)
  | .wr => .wr (modWidth md) arg
  | .seek => .seek arg
  | .pos => .pos
  | .len => .len
  | .clr => .clr
  | .enc => .enc (modTSel md) arg
  | .dec => .dec (modTSel md) arg
  | .lrcclr => .lrcclr
  | .lrcadd => .lrcadd (modTSel md) arg
  | .lrcget => .lrcget (modTSel md)

/-- Why a command word is illegal (R68). All four have the one consequence `ILLEGAL`. -/
inductive Illegal where
  /-- An `OP` value that the opcode map does not list. -/
  | unassignedOp
  /-- A listed `OP` with a non-zero `RSV`. -/
  | reservedNotZero
  /-- A non-zero must-be-0 bit of `MOD`. -/
  | modNotZero
  /-- A non-zero `ARG` in a command whose `ARG` must be zero. -/
  | argNotZero
  deriving DecidableEq, Repr

/-- The decoder: total on all `2^64` command words (R67, R68). -/
def decode (w : CmdWord) : Except Illegal Instr :=
  match Opcode.ofCode (cmdOp w) with
  | none => .error .unassignedOp
  | some o =>
    if cmdRsv w ≠ 0 then .error .reservedNotZero
    else if cmdMod w &&& o.format.modMustBeZero ≠ 0 then .error .modNotZero
    else if o.argMustBeZero ∧ cmdArg w ≠ 0 then .error .argNotZero
    else .ok (o.instr (cmdMod w) (cmdArg w))

/-- The command word whose bits are `w` in a row of the opcode table of `nbits` bits: bit 0 is the least
significant bit of the one 64-bit word, and every bit above `nbits` is 0 (log entry 14). -/
def tableWord (nbits w : Nat) : CmdWord :=
  BitVec.ofNat 64 (w % 2 ^ nbits)

/-- The instruction the decoder reads from an instruction whose bits are `w`, numbered as spec/opcode_table.json
numbers them; none where the decoder refuses. -/
def decodeTableWord (nbits w : Nat) : Option Instr :=
  match decode (tableWord nbits w) with
  | .ok i => some i
  | .error _ => none

/-- A command word from its fields, with `RSV = 0` (R62, R65). -/
def packCmd (op md : BitVec 8) (arg : Word32) : CmdWord :=
  op ++ md ++ (0 : BitVec 16) ++ arg

/-- `MOD` of format N: `NM1 = n - 1` in `MOD[4:0]` (R63, R64). -/
def widthMod (n : Nat) : BitVec 8 :=
  (BitVec.ofNat 5 (n - 1)).setWidth 8

/-- `MOD` of format T: `TSEL` in `MOD[0]` (R63, R64). -/
def tselMod : TSel → BitVec 8
  | .seven => 0
  | .five => 1

/-- The operation of an instruction. -/
def Instr.opcode : Instr → Opcode
  | .rd _ => .rd
  | .wr _ _ => .wr
  | .seek _ => .seek
  | .pos => .pos
  | .len => .len
  | .clr => .clr
  | .enc _ _ => .enc
  | .dec _ _ => .dec
  | .lrcclr => .lrcclr
  | .lrcadd _ _ => .lrcadd
  | .lrcget _ => .lrcget

/-- The field `MOD` of an instruction's word (R63). -/
def Instr.modField : Instr → BitVec 8
  | .rd n => widthMod n
  | .wr n _ => widthMod n
  | .seek _ => 0
  | .pos => 0
  | .len => 0
  | .clr => 0
  | .enc t _ => tselMod t
  | .dec t _ => tselMod t
  | .lrcclr => 0
  | .lrcadd t _ => tselMod t
  | .lrcget t => tselMod t

/-- The field `ARG` of an instruction's word (R64, R65). -/
def Instr.argField : Instr → Word32
  | .rd _ => 0
  | .wr _ value => value
  | .seek arg => arg
  | .pos => 0
  | .len => 0
  | .clr => 0
  | .enc _ ch => ch
  | .dec _ word => word
  | .lrcclr => 0
  | .lrcadd _ ch => ch
  | .lrcget _ => 0

/-- The command word of an instruction (R62 to R66). -/
def encode (i : Instr) : CmdWord :=
  packCmd i.opcode.code i.modField i.argField

/-- One row of the opcode map (R66): its operation, its columns match (`pattern` here) and mask. -/
structure OpcodeRow where
  opcode : Opcode
  pattern : CmdWord
  mask : CmdWord
  deriving DecidableEq, Repr

/-- The opcode map of R66, row by row, as the spec prints its columns match and mask. -/
def opcodeRows : List OpcodeRow :=
  [⟨.rd, 0x0100_0000_0000_0000, 0xFFE0_FFFF_FFFF_FFFF⟩,
   ⟨.wr, 0x0200_0000_0000_0000, 0xFFE0_FFFF_0000_0000⟩,
   ⟨.seek, 0x0300_0000_0000_0000, 0xFFFF_FFFF_0000_0000⟩,
   ⟨.pos, 0x0400_0000_0000_0000, 0xFFFF_FFFF_FFFF_FFFF⟩,
   ⟨.len, 0x0500_0000_0000_0000, 0xFFFF_FFFF_FFFF_FFFF⟩,
   ⟨.clr, 0x0600_0000_0000_0000, 0xFFFF_FFFF_FFFF_FFFF⟩,
   ⟨.enc, 0x1000_0000_0000_0000, 0xFFFE_FFFF_0000_0000⟩,
   ⟨.dec, 0x1100_0000_0000_0000, 0xFFFE_FFFF_0000_0000⟩,
   ⟨.lrcclr, 0x1200_0000_0000_0000, 0xFFFF_FFFF_FFFF_FFFF⟩,
   ⟨.lrcadd, 0x1300_0000_0000_0000, 0xFFFE_FFFF_0000_0000⟩,
   ⟨.lrcget, 0x1400_0000_0000_0000, 0xFFFE_FFFF_FFFF_FFFF⟩]

/-- A word is the row's command exactly when `(c and mask) = match` (R66). -/
def OpcodeRow.matches (r : OpcodeRow) (w : CmdWord) : Bool :=
  w &&& r.mask == r.pattern

end Sys2Proof
end

