-- ==== Sys2Proof/Config.lean ====
section
/-! DEFINITION. The parameters that the spec leaves to an implementation (00_scope.md R8): the capacity and the two
codeword tables. Their constraints are `Config.WF` in Sys2Proof/Safety.lean. -/

namespace Sys2Proof

/-- What one implementation fixes (R8, R30). It is no state of the block: no command and no reset writes it.
DESIGN CHOICE (log entry 1): it is carried by the field `cfg` of the state. -/
structure Config where
  /-- `CAP`, the largest `LEN`, in bytes. -/
  cap : Nat
  /-- `TABLE7`: entry `i` is the codeword of the character with code `0x20 + i` (R30). -/
  table7 : Vector (BitVec 7) 64
  /-- `TABLE5`: entry `i` is the codeword of the character with code `0x30 + i` (R30). -/
  table5 : Vector (BitVec 5) 16
  deriving DecidableEq, Repr

end Sys2Proof
end

