-- ==== Sys2Proof/Machine/RefTables.lean ====
section
/-! DEFINITION. The reference tables (30_encoding.md R80 to R82, 93_implementation_defined.md G3) and the reference
configuration (00_scope.md R8). They are the spec's own choice, for concrete runs only: no rule rests on them.
DESIGN CHOICE (log entry 2): `State.reset` carries the reference configuration. -/

namespace Sys2Proof

/-- `REF_ISO7` (R81): the codewords of 0x20 to 0x5F, eight a row. -/
def refIso7 : Vector (BitVec 7) 64 :=
  #v[0x01, 0x40, 0x20, 0x61, 0x10, 0x51, 0x31, 0x70,
    0x08, 0x49, 0x29, 0x68, 0x19, 0x58, 0x38, 0x79,
    0x04, 0x45, 0x25, 0x64, 0x15, 0x54, 0x34, 0x75,
    0x0D, 0x4C, 0x2C, 0x6D, 0x1C, 0x5D, 0x3D, 0x7C,
    0x02, 0x43, 0x23, 0x62, 0x13, 0x52, 0x32, 0x73,
    0x0B, 0x4A, 0x2A, 0x6B, 0x1A, 0x5B, 0x3B, 0x7A,
    0x07, 0x46, 0x26, 0x67, 0x16, 0x57, 0x37, 0x76,
    0x0E, 0x4F, 0x2F, 0x6E, 0x1F, 0x5E, 0x3E, 0x7F]

/-- `REF_ISO5` (R82): the codewords of 0x30 to 0x3F. -/
def refIso5 : Vector (BitVec 5) 16 :=
  #v[0x01, 0x10, 0x08, 0x19, 0x04, 0x15, 0x0D, 0x1C,
    0x02, 0x13, 0x0B, 0x1A, 0x07, 0x16, 0x0E, 0x1F]

/-- `REF_PLAIN7` (G3). -/
def refPlain7 : Vector (BitVec 7) 64 :=
  #v[0x01, 0x02, 0x04, 0x07, 0x08, 0x0B, 0x0D, 0x0E,
    0x10, 0x13, 0x15, 0x16, 0x19, 0x1A, 0x1C, 0x1F,
    0x20, 0x23, 0x25, 0x26, 0x29, 0x2A, 0x2C, 0x2F,
    0x31, 0x32, 0x34, 0x37, 0x38, 0x3B, 0x3D, 0x3E,
    0x40, 0x43, 0x45, 0x46, 0x49, 0x4A, 0x4C, 0x4F,
    0x51, 0x52, 0x54, 0x57, 0x58, 0x5B, 0x5D, 0x5E,
    0x61, 0x62, 0x64, 0x67, 0x68, 0x6B, 0x6D, 0x6E,
    0x70, 0x73, 0x75, 0x76, 0x79, 0x7A, 0x7C, 0x7F]

/-- `REF_PLAIN5` (G3). -/
def refPlain5 : Vector (BitVec 5) 16 :=
  #v[0x01, 0x02, 0x04, 0x07, 0x08, 0x0B, 0x0D, 0x0E,
    0x10, 0x13, 0x15, 0x16, 0x19, 0x1A, 0x1C, 0x1F]

/-- The reference values of the three parameters (R8): `CAP = 256`, `REF_ISO7`, `REF_ISO5`. -/
def Config.reference : Config :=
  ⟨256, refIso7, refIso5⟩

/-- The alternative well-formed pair of tables, with the reference capacity (G3). -/
def Config.plain : Config :=
  ⟨256, refPlain7, refPlain5⟩

end Sys2Proof
end

