-- ==== Sys2Proof/Machine/State.lean ====
section
/-! DEFINITION. The state of the block as plain data (10_state.md R20 to R25, R39), the reasons a step can stop, and the
state after reset. The two ports of 30_encoding.md R60 stand in the state as well: what the host will do next, and the
responses given. -/

namespace Sys2Proof.Machine

/-- The five values of `STATUS` (R69); no other is ever produced (93_implementation_defined.md U11). -/
inductive Status where
  /-- The command did what its rule says. -/
  | ok
  /-- End-of-data: fewer than `n` bits remain (RD). Not an error (R167). -/
  | eod
  /-- The character has no entry in the selected table (ENC, LRCADD). -/
  | invalidChar
  /-- The write would make `LEN` exceed `CAP` (WR). -/
  | overflow
  /-- The command word matches no command (R68). -/
  | illegal
  deriving DecidableEq, Repr

/-- One response `(STATUS, DATA)` (R14, R69). Its 40-bit word is `Response.word` in Machine/Flags.lean. -/
structure Response where
  status : Status
  data : Word32
  deriving DecidableEq, Repr

/-- What the host does next (R189): it presents any 64-bit word on the command port, or it asserts reset. -/
inductive HostMove where
  /-- A command word is presented. -/
  | command (w : CmdWord)
  /-- Reset is asserted. `abandoned` is the command that was taken but not yet answered then, if there was one (R186). -/
  | reset (abandoned : Option CmdWord)
  deriving DecidableEq, Repr

/-- The buffer's bytes that are not 0x00, as (index, byte) pairs. Canonical form: `Memory.wf` in Machine/Ops.lean. -/
abbrev Memory := List Host.Cell

/-- The state. `cells`, `len`, `cursor`, `acc` are the whole architectural state of R20; `cfg` is the configuration,
which nothing writes (log entry 1); `moves` and `responses` are the two ports (log entries 3 and 4). -/
structure State where
  /-- `CAP`, `TABLE7`, `TABLE5` (R8). -/
  cfg : Config
  /-- `BUF` (R21): byte `i` for `i < len`, an unlisted byte being 0x00 (log entry 6). -/
  cells : Memory
  /-- `LEN` (R22). -/
  len : Nat
  /-- `CURSOR`, a bit offset (R23). -/
  cursor : Nat
  /-- `ACC` (R25). -/
  acc : BitVec 7
  /-- The host's moves still to come, oldest first (R60, R189). -/
  moves : List HostMove
  /-- The responses given, oldest first (R60, R61). -/
  responses : List Response
  deriving DecidableEq, Repr

/-- The faults of a step. The spec's own conditions are statuses of responses and no faults (R165). -/
inductive Fault where
  /-- MemRead or MemWrite outside the domain for which R43 and R45 define it: a width outside 1 to 32, or a write
  with `CURSOR > 8*LEN`. Raised by RD and WR, in no state that satisfies INV1 of R24 with a width that a command word
  can carry. DESIGN CHOICE (log entry 7), safe: the model stops where the spec defines nothing. -/
  | undefinedAccess
  deriving DecidableEq, Repr

/-- The refusals of a step. -/
inductive Refusal where
  /-- An instruction that has no meaning yet. Raised by an arm of `exec` only, and by none now. Safe. -/
  | notModelled (mnemonic : String)
  deriving DecidableEq, Repr

/-- The state right after reset of a block configured with `c`, no host move pending and no response given (R39, R185). -/
def State.resetWith (c : Config) : State where
  cfg := c
  cells := []
  len := 0
  cursor := 0
  acc := 0
  moves := []
  responses := []

/-- The machine right after reset (R39, R185), with the reference values of the parameters (R8; log entry 2). -/
def State.reset : State :=
  State.resetWith Config.reference

end Sys2Proof.Machine
end

