-- ==== Sys2Proof/Machine/Operands.lean ====
section
/-! DEFINITION. The operand forms of the commands (00_scope.md R10, R11, R16; 30_encoding.md R64): the stored value of WR,
the signed operand of SEEK, the bit address of RD and WR, and what a table select selects. -/

namespace Sys2Proof

/-- `base(t)`, the character code of entry 0 (R15, R16; log entry 16). -/
def TSel.base : TSel → Nat
  | .seven => 0x20
  | .five => 0x30

/-- `TABLE(t)` (R16). -/
def Config.table (c : Config) : (t : TSel) → Vector (BitVec t.width) t.count
  | .seven => c.table7
  | .five => c.table5

end Sys2Proof

namespace Sys2Proof.Machine

/-- `ceil8(k)`, the bytes that hold `k` bits (R10). -/
def ceil8 (k : Nat) : Nat :=
  (k + 7) / 8

/-- `mask(n) = 2^n - 1`, computed over the natural numbers (R11; 90_conflicts.md C4). -/
def mask (n : Nat) : Nat :=
  2 ^ n - 1

/-- `ARG and mask(n)`: the low `n` bits of the operand of WR (R93). -/
def lowBits (n : Nat) (arg : Word32) : Word32 :=
  arg &&& BitVec.ofNat 32 (mask n)

/-- `sext_32(ARG)`, the signed operand of SEEK (R10, R64, R95). -/
def seekDelta (arg : Word32) : Int :=
  if arg.toNat < 2 ^ 31 then arg.toNat else (arg.toNat : Int) - 2 ^ 32

/-- The effective bit address of RD and WR: `CURSOR`, the one addressing mode (R102). -/
def effectiveBit (s : State) : Nat :=
  s.cursor

/-- `min(max(CURSOR + d, 0), 8*LEN)`, the cursor after a seek by `d` bits (R95). -/
def seekTarget (d : Int) (s : State) : Nat :=
  (min (max ((s.cursor : Int) + d) 0) ((8 * s.len : Nat) : Int)).toNat

end Sys2Proof.Machine
end

