-- ==== Sys2Proof/Machine/Flags.lean ====
section
/-! DEFINITION. The block has no flags (10_state.md R36). What stands in their place is the status of each response
(60_exceptions.md R165, R166): the conditions and codes are here, and the parity functions of 00_scope.md R11. -/

namespace Sys2Proof.Machine

/-- `popcount(v)`, the number of bits that are 1 (R11). -/
def popcount {w : Nat} (v : BitVec w) : Nat :=
  (List.range w).countP fun i => v.getLsbD i

/-- `parity(v) = popcount(v) mod 2` (R11), as a bit. -/
def parity {w : Nat} (v : BitVec w) : Bool :=
  popcount v % 2 == 1

/-- The column `STATUS` of R69. -/
def Status.code : Status → BitVec 8
  | .ok => 0x00
  | .eod => 0x01
  | .invalidChar => 0x02
  | .overflow => 0x03
  | .illegal => 0x04

/-- The response word: `RSP[39:32] = STATUS`, `RSP[31:0] = DATA` (R69). -/
def Response.word (r : Response) : RspWord :=
  r.status.code ++ r.data

/-- The condition of `EOD`: `CURSOR + n > 8*LEN` (R91, R166). -/
def eodCondition (n : Nat) (s : State) : Bool :=
  decide (s.cursor + n > 8 * s.len)

/-- The condition of `OVERFLOW`: `ceil8(CURSOR + n) > CAP` (R93, R166). -/
def overflowCondition (n : Nat) (s : State) : Bool :=
  decide (ceil8 (s.cursor + n) > s.cfg.cap)

end Sys2Proof.Machine
end

