-- ==== Sys2Proof/Machine/Ops.lean ====
section
/-! DEFINITION. The named operations over the buffer and the registers (20_memory.md R41 to R46), and the two ways a
command ends: `respond OK` and `raise` (00_scope.md R14), which is what the block has for taking an exception. Nothing
returns from it: after any response the block is ready for the next command (60_exceptions.md R172). -/

namespace Sys2Proof.Machine

/-! ### The buffer's cells -/

/-- What a byte of the buffer that no cell lists holds: growth appends bytes that are `0x00` (R46; log entry 6). -/
def unlistedByte : Byte := 0x00

/-- The canonical form of the cells: addresses strictly rising, no entry equal to what an unlisted address reads as. -/
abbrev Memory.wf (m : Memory) : Prop :=
  m.Pairwise (fun c d => c.1 < d.1) ∧ ∀ c ∈ m, c.2 ≠ unlistedByte

/-- The byte at an index. -/
def Memory.read : Memory → Nat → Byte
  | [], _ => unlistedByte
  | c :: m, i => if c.1 = i then c.2 else Memory.read m i

/-- A cell in front of cells, or nothing if the byte is what an unlisted index reads as. -/
def Memory.cons (i : Nat) (b : Byte) (m : Memory) : Memory :=
  if b = unlistedByte then m else (i, b) :: m

/-- The cells with the byte at one index replaced. -/
def Memory.write : Memory → Nat → Byte → Memory
  | [], i, b => Memory.cons i b []
  | c :: m, i, b =>
    if i < c.1 then Memory.cons i b (c :: m)
    else if i = c.1 then Memory.cons i b m
    else c :: Memory.write m i b

/-! ### The buffer -/

/-- `BUF[i]`, for `0 <= i < LEN`; there is no byte at index `LEN` or above (R12, R21). -/
def State.byteAt? (s : State) (i : Nat) : Option Byte :=
  if i < s.len then some (s.cells.read i) else none

/-- `BUF` as the sequence of exactly `LEN` bytes that R21 describes. -/
def State.bufBytes (s : State) : List Byte :=
  (List.range s.len).map s.cells.read

/-- `StreamBit(k) = BUF[k div 8][7 - (k mod 8)]`, for `0 <= k < 8*LEN` (R41). -/
def streamBit (s : State) (k : Nat) : Bool :=
  (s.cells.read (k / 8)).getLsbD (7 - k % 8)

/-- A byte with bit `j` replaced by `b`. -/
def replaceBit (v : Byte) (j : Nat) (b : Bool) : Byte :=
  if b then v ||| BitVec.twoPow 8 j else v &&& ~~~ BitVec.twoPow 8 j

/-- `SetBit(k, b)`: bit `7 - (k mod 8)` of `BUF[k div 8]` replaced by `b` (R44). -/
def setBit (s : State) (k : Nat) (b : Bool) : State :=
  { s with cells := s.cells.write (k / 8) (replaceBit (s.cells.read (k / 8)) (7 - k % 8) b) }

/-- `Grow(newlen)`: bytes `0x00` appended up to `newlen` (R46). An unlisted byte reads as `0x00`, so `LEN` moves and
no cell does. -/
def grow (s : State) (newlen : Nat) : State :=
  { s with len := newlen }

/-- The sum that defines MemRead (R43): the first bit of the stream is the most significant bit of the value. -/
def streamValue (s : State) (k n : Nat) : Nat :=
  ((List.range n).map fun j => (streamBit s (k + j)).toNat * 2 ^ (n - 1 - j)).sum

/-- `MemRead(k, n)`, for `1 <= n <= 32` and `k + n <= 8*LEN`; not defined elsewhere (R43). -/
def memRead (s : State) (k n : Nat) : Option Word32 :=
  if 1 ≤ n ∧ n ≤ 32 ∧ k + n ≤ 8 * s.len then some (BitVec.ofNat 32 (streamValue s k n)) else none

/-- The loop of MemWrite: `for j in 0..n-1: SetBit(k + j, v[n-1-j])` (R45). -/
def storeBits (s : State) (k n : Nat) (v : Word32) : State :=
  (List.range n).foldl (fun u j => setBit u (k + j) (v.getLsbD (n - 1 - j))) s

/-- `MemWrite(k, n, v)`, for `1 <= n <= 32`, `0 <= v < 2^n`, `k <= 8*LEN` and `ceil8(k+n) <= CAP`; not defined
elsewhere (R45). -/
def memWrite (s : State) (k n : Nat) (v : Word32) : Option State :=
  if 1 ≤ n ∧ n ≤ 32 ∧ v.toNat < 2 ^ n ∧ k ≤ 8 * s.len ∧ ceil8 (k + n) ≤ s.cfg.cap then
    some (storeBits (grow s (max s.len (ceil8 (k + n)))) k n v)
  else none

/-! ### The ends of a command -/

/-- A response is given: it follows every response given before it (R60, R61). -/
def State.respond (s : State) (r : Response) : State :=
  { s with responses := s.responses ++ [r] }

/-- `respond OK(d)` (R14). -/
def State.respondOk (s : State) (d : Word32) : State :=
  s.respond ⟨.ok, d⟩

/-- `raise <Status>`: no change to any state, a response with that status and `DATA = 0` (R14, R170). -/
def State.raise (s : State) (st : Status) : State :=
  s.respond ⟨st, 0⟩

/-- A command that has completed with a next state. -/
def completed (s : State) : Host.Outcome State Fault Refusal :=
  .next s

/-- A command that uses a primitive of R43 or R45: it goes on with its value where the spec defines one, and stops by
name where it does not (log entry 7). -/
def ifDefined {α : Type} (x : Option α) (f : α → State) : Host.Outcome State Fault Refusal :=
  match x with
  | some a => .next (f a)
  | none => .fault .undefinedAccess

/-- Reset (R39, R185, R186): the four pieces of state take their reset values. The configuration is the same, and the
host keeps its moves still to come and the responses it has received (log entry 5). -/
def State.hostReset (s : State) : State :=
  { State.resetWith s.cfg with moves := s.moves, responses := s.responses }

end Sys2Proof.Machine
end

