-- ==== Sys2Proof/Machine/BitCodec.lean ====
section
/-! DEFINITION. The BitCodec commands RD, WR, SEEK, POS, LEN, CLR (40_bitcodec.md R90 to R103). -/

namespace Sys2Proof.Machine

/-- RD (R91): `EOD` with nothing changed when fewer than `n` bits remain; else the value of the next `n` bits, zero
extended, and the cursor moved past them. -/
def execRd (n : Nat) (s : State) : Host.Outcome State Fault Refusal :=
  if eodCondition n s then completed (s.raise .eod)
  else ifDefined (memRead s (effectiveBit s) n) fun v =>
    State.respondOk { s with cursor := s.cursor + n } v

/-- WR (R93): `OVERFLOW` with nothing changed when the write would need more than `CAP` bytes; else the low `n` bits of
the operand written at the cursor, and the cursor moved past them. -/
def execWr (n : Nat) (value : Word32) (s : State) : Host.Outcome State Fault Refusal :=
  if overflowCondition n s then completed (s.raise .overflow)
  else ifDefined (memWrite s (effectiveBit s) n (lowBits n value)) fun u =>
    State.respondOk { u with cursor := s.cursor + n } 0

/-- SEEK (R95): the cursor moved by `sext_32(ARG)` bits and clamped to `[0, 8*LEN]`. -/
def execSeek (arg : Word32) (s : State) : Host.Outcome State Fault Refusal :=
  completed (State.respondOk { s with cursor := seekTarget (seekDelta arg) s } 0)

/-- POS (R97): the cursor, which fits 32 bits by INV1, INV2 and R8 (log entry 12). -/
def execPos (s : State) : Host.Outcome State Fault Refusal :=
  completed (s.respondOk (BitVec.ofNat 32 s.cursor))

/-- LEN (R98): the buffer's length in bytes, which fits 32 bits likewise (log entry 12). -/
def execLen (s : State) : Host.Outcome State Fault Refusal :=
  completed (s.respondOk (BitVec.ofNat 32 s.len))

/-- CLR (R99): the codec emptied; `ACC` keeps its value. -/
def execClr (s : State) : Host.Outcome State Fault Refusal :=
  completed (State.respondOk { s with cells := [], len := 0, cursor := 0 } 0)

end Sys2Proof.Machine
end

