-- ==== Sys2Proof/Machine/TrackAlphabet.lean ====
section
/-! DEFINITION. The TrackAlphabet lookups `enc` and `dec` and the commands ENC, DEC (41_trackalphabet.md R110 to R117). -/

namespace Sys2Proof.Machine

/-- `'~'`, the sentinel character of a word with no entry (R9, R15, R113). -/
def noEntryChar : Nat := 0x7E

/-- `enc(t, ch)` (R111): the codeword of a character, none if it has no entry. -/
def encChar (c : Config) (t : TSel) (ch : Nat) : Option (BitVec t.width) :=
  if h : t.base ≤ ch ∧ ch < t.base + t.count then
    some ((c.table t)[ch - t.base]'(by omega))
  else none

/-- `dec(t, word)` (R113): the character of a codeword, `'~'` if the word has no entry. In a table with a repeated
entry, which WF1 of R31 excludes, the least index (log entry 8). -/
def decWord (c : Config) (t : TSel) (word : Nat) : Nat :=
  match (c.table t).toList.findIdx? fun e => e.toNat == word with
  | some i => t.base + i
  | none => noEntryChar

/-- ENC (R115): the codeword, or `INVALID_CHAR` when the character has no entry. No state is written. -/
def execEnc (t : TSel) (ch : Word32) (s : State) : Host.Outcome State Fault Refusal :=
  match encChar s.cfg t ch.toNat with
  | some c => completed (s.respondOk (c.setWidth 32))
  | none => completed (s.raise .invalidChar)

/-- DEC (R116): the character, `'~'` for a word with no entry. No state is written. -/
def execDec (t : TSel) (word : Word32) (s : State) : Host.Outcome State Fault Refusal :=
  completed (s.respondOk (BitVec.ofNat 32 (decWord s.cfg t word.toNat)))

end Sys2Proof.Machine
end

