-- ==== Sys2Proof/Machine/Lrc.lean ====
section
/-! DEFINITION. The LRC function and the commands LRCCLR, LRCADD, LRCGET (42_lrc.md R125 to R138). -/

namespace Sys2Proof.Machine

/-- `{ p[w-1:1], parity(p[w-1:1]) }`: bits `w-1` to 1 kept, bit 0 replaced (R76, R126, R131). -/
def lrcWord : (t : TSel) → BitVec t.width → BitVec t.width
  | .seven, p => (p.extractLsb' 1 6 ++ BitVec.ofBool (parity (p.extractLsb' 1 6)) : BitVec (6 + 1))
  | .five, p => (p.extractLsb' 1 4 ++ BitVec.ofBool (parity (p.extractLsb' 1 4)) : BitVec (4 + 1))

/-- The exclusive-or of the codewords of a sequence (R126); none if some character has no entry (R128; log
entry 9). -/
def codewordXor (c : Config) (t : TSel) : List Nat → Option (BitVec t.width)
  | [] => some 0
  | ch :: chars =>
    match encChar c t ch, codewordXor c t chars with
    | some x, some p => some (x ^^^ p)
    | _, _ => none

/-- `lrc(t, chars)` (R126); none if some character has no entry (R128, 93_implementation_defined.md U5;
log entry 9). -/
def lrc (c : Config) (t : TSel) (chars : List Nat) : Option (BitVec t.width) :=
  (codewordXor c t chars).map (lrcWord t)

/-- LRCCLR (R129): `ACC <- 0`. -/
def execLrcclr (s : State) : Host.Outcome State Fault Refusal :=
  completed (State.respondOk { s with acc := 0 } 0)

/-- LRCADD (R130): the codeword folded into `ACC` by exclusive-or, or `INVALID_CHAR` with `ACC` unchanged. -/
def execLrcadd (t : TSel) (ch : Word32) (s : State) : Host.Outcome State Fault Refusal :=
  match encChar s.cfg t ch.toNat with
  | some c => completed (State.respondOk { s with acc := s.acc ^^^ c.setWidth 7 } 0)
  | none => completed (s.raise .invalidChar)

/-- LRCGET (R131): the LRC word of `ACC[w-1:0]`; `ACC` keeps its value. -/
def execLrcget (t : TSel) (s : State) : Host.Outcome State Fault Refusal :=
  completed (s.respondOk ((lrcWord t (s.acc.setWidth t.width)).setWidth 32))

end Sys2Proof.Machine
end

