-- ==== Sys2Proof/Machine/Dispatch.lean ====
section
/-! DEFINITION. `exec`: one arm per command of the opcode map (30_encoding.md R66). -/

namespace Sys2Proof.Machine

def exec (i : Instr) (s : State) : Host.Outcome State Fault Refusal :=
  match i with
  | .rd n => Sys2Proof.Machine.execRd n s
  | .wr n value => Sys2Proof.Machine.execWr n value s
  | .seek arg => Sys2Proof.Machine.execSeek arg s
  | .pos => Sys2Proof.Machine.execPos s
  | .len => Sys2Proof.Machine.execLen s
  | .clr => Sys2Proof.Machine.execClr s
  | .enc t ch => Sys2Proof.Machine.execEnc t ch s
  | .dec t word => Sys2Proof.Machine.execDec t word s
  | .lrcclr => Sys2Proof.Machine.execLrcclr s
  | .lrcadd t ch => Sys2Proof.Machine.execLrcadd t ch s
  | .lrcget t => Sys2Proof.Machine.execLrcget t s

end Sys2Proof.Machine
end

