-- ==== Sys2Proof/Machine/Step.lean ====
section
/-! DEFINITION. One step of the machine: the oldest pending move of the host, answered (20_memory.md R52, R53;
30_encoding.md R60, R61). Cycles and signals are left out (log entry 13). -/

namespace Sys2Proof.Machine

/-- The block executes one command word: the instruction it decodes to, or `ILLEGAL` with no state change (R61, R68,
R171, R173). -/
def runCommand (w : CmdWord) (s : State) : Host.Outcome State Fault Refusal :=
  match decode w with
  | .ok i => exec i s
  | .error _ => completed (s.raise .illegal)

/-- One step. With no host move pending the block waits (R185; log entry 3). A command word is executed and answered
(R52, R60). A reset replaces the state by the reset state, and the command it abandons, if any, has no effect and no
response (R174, R186). -/
def step (s : State) : Host.Outcome State Fault Refusal :=
  match s.moves with
  | [] => .next s
  | .command w :: rest => runCommand w { s with moves := rest }
  | .reset _ :: rest => .next (State.hostReset { s with moves := rest })

/-- The state in which the host's next move is to present the word of a row of the opcode table: the block fetches
nothing (R35), so the command port is where the next step takes its instruction from (log entry 3). -/
def State.withFetchWord (s : State) (nbits w : Nat) : State :=
  { s with moves := .command (tableWord nbits w) :: s.moves }

end Sys2Proof.Machine
end

