-- ==== Sys2Proof/Machine/Assembler.lean ====
section
/-! DEFINITION. The assembler syntax of the commands (30_encoding.md R85; the number forms of 00_scope.md R10). It turns a
text into command words and touches no state of the block. Log entry 11 names what R85 leaves to the reader. -/

namespace Sys2Proof.Machine

/-- What stands before the operands of a line: a mnemonic, with `.7` or `.5` where R85 writes a suffix. -/
inductive AsmOp where
  | rd
  | wr
  | seek
  | pos
  | len
  | clr
  | enc (t : TSel)
  | dec (t : TSel)
  | lrcclr
  | lrcadd (t : TSel)
  | lrcget (t : TSel)
  deriving DecidableEq, Repr

/-- The spellings of R85. -/
def asmOps : List (String × AsmOp) :=
  [("RD", .rd), ("WR", .wr), ("SEEK", .seek), ("POS", .pos), ("LEN", .len), ("CLR", .clr),
   ("ENC.7", .enc .seven), ("ENC.5", .enc .five), ("DEC.7", .dec .seven), ("DEC.5", .dec .five),
   ("LRCCLR", .lrcclr), ("LRCADD.7", .lrcadd .seven), ("LRCADD.5", .lrcadd .five),
   ("LRCGET.7", .lrcget .seven), ("LRCGET.5", .lrcget .five)]

/-! ### From a mnemonic and its operands to a command -/

/-- A width operand: refused outside 1..32 (R85). -/
def widthOperand (v : Int) : Option Nat :=
  if 1 ≤ v ∧ v ≤ 32 then some v.toNat else none

/-- An unsigned 32-bit operand: refused outside `0..2^32-1` (R85). -/
def wordOperand (v : Int) : Option Word32 :=
  if 0 ≤ v ∧ v < 2 ^ 32 then some (BitVec.ofNat 32 v.toNat) else none

/-- The operand of SEEK, `delta mod 2^32`: refused outside `-2^31..2^31-1` (R85). -/
def deltaOperand (v : Int) : Option Word32 :=
  if -(2 ^ 31) ≤ v ∧ v ≤ 2 ^ 31 - 1 then some (BitVec.ofInt 32 v) else none

/-- The table of R85: a mnemonic with the operands it takes, as a command. -/
def asmInstr : AsmOp → List Int → Option Instr
  | .rd, [n] => (widthOperand n).map .rd
  | .wr, [n, v] => (widthOperand n).bind fun k => (wordOperand v).map (.wr k)
  | .seek, [d] => (deltaOperand d).map .seek
  | .pos, [] => some .pos
  | .len, [] => some .len
  | .clr, [] => some .clr
  | .enc t, [ch] => (wordOperand ch).map (.enc t)
  | .dec t, [w] => (wordOperand w).map (.dec t)
  | .lrcclr, [] => some .lrcclr
  | .lrcadd t, [ch] => (wordOperand ch).map (.lrcadd t)
  | .lrcget t, [] => some (.lrcget t)
  | _, _ => none

/-! ### From text to mnemonics and operands -/

/-- The tokens of a line. -/
inductive Token where
  | word (cs : List Char)
  | chr (c : Char)
  | comma
  deriving DecidableEq, Repr

/-- The word read so far (its characters in reverse), if any, in front of tokens. -/
def endWord (acc : List Char) (ts : List Token) : List Token :=
  if acc.isEmpty then ts else .word acc.reverse :: ts

/-- The tokens of a line up to its comment: blanks and commas separate, `;` starts a comment, a character between
single quotes is one token (R85). -/
def tokens : List Char → List Char → List Token
  | acc, [] => endWord acc []
  | acc, '\'' :: c :: '\'' :: rest => endWord acc (.chr c :: tokens [] rest)
  | acc, c :: rest =>
    if c = ';' then endWord acc []
    else if c = ',' then endWord acc (.comma :: tokens [] rest)
    else if c = ' ' ∨ c = '\t' ∨ c = '\r' then endWord acc (tokens [] rest)
    else tokens (c :: acc) rest

/-- The value of a digit, decimal or hexadecimal of either case. -/
def digitValue (c : Char) : Option Nat :=
  if '0' ≤ c ∧ c ≤ '9' then some (c.toNat - '0'.toNat)
  else if 'a' ≤ c ∧ c ≤ 'f' then some (c.toNat - 'a'.toNat + 10)
  else if 'A' ≤ c ∧ c ≤ 'F' then some (c.toNat - 'A'.toNat + 10)
  else none

/-- The digits of a number in a base, after the digits read so far; `_` groups digits (R10). -/
def digits (base : Nat) : Option Nat → List Char → Option Nat
  | v, [] => v
  | v, c :: cs =>
    if c = '_' ∧ v.isSome then digits base v cs
    else
      match digitValue c with
      | some d => if d < base then digits base (some (v.getD 0 * base + d)) cs else none
      | none => none

/-- An unsigned number: decimal, `0x` hexadecimal or `0b` binary (R10, R85). -/
def unsignedNumber : List Char → Option Nat
  | '0' :: 'x' :: cs => digits 16 none cs
  | '0' :: 'b' :: cs => digits 2 none cs
  | cs => digits 10 none cs

/-- A number with its sign. -/
def number : List Char → Option Int
  | '-' :: cs => (unsignedNumber cs).map fun v => -(v : Int)
  | cs => (unsignedNumber cs).map fun v => (v : Int)

/-- One operand: a number, or a character literal, which stands for its ASCII code (R85). -/
def operand : Token → Option Int
  | .word cs => number cs
  | .chr c => if c.toNat < 128 then some (c.toNat : Int) else none
  | .comma => none

/-- Operands separated by single commas. -/
def operands : List Token → Option (List Int)
  | [] => some []
  | [t] => (operand t).map fun v => [v]
  | t :: .comma :: u :: ts => (operand t).bind fun v => (operands (u :: ts)).map (v :: ·)
  | _ => none

/-- What a line says: nothing, or one command. -/
inductive AsmLine where
  | blank
  | command (i : Instr)
  deriving DecidableEq, Repr

/-- One line: blank, a comment, or one command; none where the assembler refuses it (R85). -/
def asmLine (cs : List Char) : Option AsmLine :=
  match tokens [] cs with
  | [] => some .blank
  | .word m :: ts =>
    match asmOps.find? fun p => p.1.toList == m with
    | some p => (operands ts).bind fun vs => (asmInstr p.2 vs).map .command
    | none => none
  | _ => none

/-- The lines of a text. -/
def textLines : List Char → List (List Char)
  | [] => [[]]
  | c :: cs =>
    if c = '\n' then [] :: textLines cs
    else
      match textLines cs with
      | l :: ls => (c :: l) :: ls
      | [] => [[c]]

/-- The command words of some lines, in order. -/
def asmLines : List (List Char) → Option (List CmdWord)
  | [] => some []
  | l :: ls =>
    match asmLine l, asmLines ls with
    | some .blank, some ws => some ws
    | some (.command i), some ws => some (encode i :: ws)
    | _, _ => none

/-- The command words of a text, one command a line; none where the assembler refuses a line (R85). -/
def assemble (text : String) : Option (List CmdWord) :=
  asmLines (textLines text.toList)

end Sys2Proof.Machine
end

