-- ==== Sys2Proof/Machine/Pipeline.lean ====
section
/-! DEFINITION. The encode and decode pipelines as sequences of commands that a host issues (43_track_pipeline.md R145 to
R159), and loading and unloading the buffer (40_bitcodec.md R100). They have no encoding and no arm of `exec`: each one
presents command words and uses the responses. TRIM runs in the host alone. Log entry 10. -/

namespace Sys2Proof.Machine

/-- How a host sequence ends. -/
inductive HostRun (α : Type) where
  /-- It completed with a result. -/
  | done (a : α) (s : State)
  /-- It stopped with a non-OK status, as its expansion says. -/
  | stopped (st : Status) (s : State)
  /-- A step of the block gave no response, or the model's own bound on a loop was reached (log entry 10). -/
  | broken
  deriving DecidableEq, Repr

/-- A host sequence followed by what depends on its result; a stop ends the whole. -/
def HostRun.bind {α β : Type} (x : HostRun α) (f : α → State → HostRun β) : HostRun β :=
  match x with
  | .done a s => f a s
  | .stopped st s => .stopped st s
  | .broken => .broken

/-- The host presents one command and takes its response (R60): one step of the block on the command's word. -/
def issue (i : Instr) (s : State) : HostRun Response :=
  match step { s with moves := .command (encode i) :: s.moves } with
  | .next t =>
    match t.responses.getLast? with
    | some r => .done r t
    | none => .broken
  | .fault _ => .broken
  | .refused _ => .broken

/-- One command whose non-OK status stops the sequence; its result is the response's data. -/
def issueOk (i : Instr) (s : State) : HostRun Word32 :=
  (issue i s).bind fun r t => if r.status = .ok then .done r.data t else .stopped r.status t

/-- The table of a track index (R3, R146; 90_conflicts.md C8). -/
def trackTable (index : Fin 3) : TSel :=
  if index = 0 then .seven else .five

/-! ### Character-level sequences -/

/-- `PUTC.t ch` (R147): ENC, WR, LRCADD. -/
def putc (t : TSel) (ch : Word32) (s : State) : HostRun Unit :=
  (issueOk (.enc t ch) s).bind fun c s₁ =>
    (issueOk (.wr t.width c) s₁).bind fun _ s₂ =>
      (issueOk (.lrcadd t ch) s₂).bind fun _ s₃ => .done () s₃

/-- `PUTLRC.t` (R148): LRCGET, WR. -/
def putlrc (t : TSel) (s : State) : HostRun Unit :=
  (issueOk (.lrcget t) s).bind fun l s₁ =>
    (issueOk (.wr t.width l) s₁).bind fun _ s₂ => .done () s₂

/-- `GETC.t` (R149): RD, DEC; the codeword read and its character. -/
def getc (t : TSel) (s : State) : HostRun (Word32 × Word32) :=
  (issueOk (.rd t.width) s).bind fun v s₁ =>
    (issueOk (.dec t v) s₁).bind fun ch s₂ => .done (v, ch) s₂

/-- One sequence for each element of a list, in order. -/
def forEach {α : Type} (f : α → State → HostRun Unit) : List α → State → HostRun Unit
  | [], s => .done () s
  | a :: as, s => (f a s).bind fun _ t => forEach f as t

/-! ### Whole bytes in and out of the buffer (R100) -/

/-- The operand of `SEEK -2^31`, the rewind (R95 corner case c). -/
def rewindArg : Word32 := 0x80000000

/-- `CLR`, `WR 8, b` for each byte, `SEEK -2^31` (R100). -/
def loadBytes (bytes : List Byte) (s : State) : HostRun Unit :=
  (issueOk .clr s).bind fun _ s₁ =>
    (forEach (fun (b : Byte) u => (issueOk (.wr 8 (b.setWidth 32)) u).bind fun _ v => .done () v) bytes s₁).bind fun _ s₂ =>
      (issueOk (.seek rewindArg) s₂).bind fun _ s₃ => .done () s₃

/-- A loop that leaves at the first `EOD` (R192), with a bound on its rounds. -/
def untilEod {α : Type} (f : State → HostRun α) : Nat → State → HostRun (List α)
  | 0, _ => .broken
  | k + 1, s =>
    match f s with
    | .done a t => (untilEod f k t).bind fun as u => .done (a :: as) u
    | .stopped .eod t => .done [] t
    | .stopped st t => .stopped st t
    | .broken => .broken

/-- A bound no loop of reads reaches: each read moves the cursor by a bit at least. -/
def readBound (s : State) : Nat :=
  8 * s.len + 1

/-- `SEEK -2^31`, then `RD 8` until `EOD` (R100). -/
def unloadBytes (s : State) : HostRun (List Byte) :=
  (issueOk (.seek rewindArg) s).bind fun _ s₁ =>
    (untilEod (issueOk (.rd 8)) (readBound s₁) s₁).bind fun vs s₂ => .done (vs.map fun v => v.setWidth 8) s₂

/-! ### Tracks -/

/-- Phase 1 of ENCODE_TRACK (R150): ENC of every character, no state change. -/
def validateChars (t : TSel) : List Word32 → State → HostRun Unit :=
  forEach fun ch u => (issueOk (.enc t ch) u).bind fun _ v => .done () v

/-- Phase 2 of ENCODE_TRACK (R150): CLR, LRCCLR, PUTC of every character, PUTLRC. -/
def buildTrack (t : TSel) (chars : List Word32) (s : State) : HostRun Unit :=
  (issueOk .clr s).bind fun _ s₁ =>
    (issueOk .lrcclr s₁).bind fun _ s₂ =>
      (forEach (putc t) chars s₂).bind fun _ s₃ => putlrc t s₃

/-- `ENCODE_TRACK(t, chars)` up to the state whose buffer is the result (R150, R151). The host-side capacity check is
optional in R150; `check` says whether the host makes it. -/
def encodeTrack (check : Bool) (t : TSel) (chars : List Word32) (s : State) : HostRun Unit :=
  (validateChars t chars s).bind fun _ s₁ =>
    if check ∧ ceil8 (t.width * (chars.length + 1)) > s.cfg.cap then .stopped .overflow s₁
    else buildTrack t chars s₁

/-- `ENCODE_TRACK(t, chars)` with its result, the bytes of the buffer, unloaded (R100, R150). -/
def encodeTrackBytes (check : Bool) (t : TSel) (chars : List Word32) (s : State) : HostRun (List Byte) :=
  (encodeTrack check t chars s).bind fun _ s₁ => unloadBytes s₁

/-- `DECODE_TRACK(t, bytes)` (R154): load, then GETC until `EOD`; the codewords read and their characters. -/
def decodeTrack (t : TSel) (bytes : List Byte) (s : State) : HostRun (List (Word32 × Word32)) :=
  (loadBytes bytes s).bind fun _ s₁ => untilEod (getc t) (readBound s₁) s₁

/-! ### TRIM (host only) -/

/-- The start sentinel `';'` (R15, R19; log entry 16). -/
def startSentinel : Word32 := 0x3B

/-- The end sentinel `'?'` (R15, R19). -/
def endSentinel : Word32 := 0x3F

/-- The sentinel character `'~'` of a word with no entry (R15, R19). -/
def noEntryMark : Word32 := 0x0000007E

/-- The three classes of a decoded track (R156). -/
inductive TrackClass where
  | valid (slice : List Word32)
  | noData
  | corruptData
  deriving DecidableEq, Repr

/-- The least index of `';'`, and the least index after it of `'?'` (R156; 92_eei_decisions.md D25). -/
def findSentinels (seq : List Word32) : Option (Nat × Nat) :=
  match seq.findIdx? (· == startSentinel) with
  | none => none
  | some b =>
    match (seq.drop (b + 1)).findIdx? (· == endSentinel) with
    | none => none
    | some e => some (b, b + 1 + e)

/-- `TRIM(seq, words)` (R156; 90_conflicts.md C2). The LRC word after the end sentinel is not checked (R157). -/
def trim (seq words : List Word32) : TrackClass :=
  match findSentinels seq with
  | none => if words.all (· == 0) then .noData else .corruptData
  | some (b, e) =>
    if ((seq.drop b).take (e - b + 1)).contains noEntryMark then .corruptData
    else .valid ((seq.drop b).take (e - b + 1))

end Sys2Proof.Machine
end

