-- ==== Sys2Proof/Safety.lean ====
section
/-! DEFINITION. What the parameters must satisfy (00_scope.md R8, 10_state.md R31), the invariants of the state (R24),
and what counts as a safe step (30_encoding.md R61: the block never hangs and never drops a command). -/

namespace Sys2Proof

/-- WF1 and WF2 of R31 for one table: the entries are pairwise distinct, and each has odd parity (90_conflicts.md C1; log
entry 15). -/
abbrev Config.TableWF (c : Config) (t : TSel) : Prop :=
  (c.table t).toList.Nodup ∧ ∀ e ∈ (c.table t).toList, Machine.parity e = true

/-- The constraint on `CAP` (R8). -/
abbrev Config.CapOk (c : Config) : Prop :=
  1 ≤ c.cap ∧ c.cap ≤ 2 ^ 28 - 1

/-- The constraints on the three parameters (R8, R31). -/
abbrev Config.WF (c : Config) : Prop :=
  c.CapOk ∧ c.TableWF .seven ∧ c.TableWF .five

end Sys2Proof

namespace Sys2Proof.Machine

/-- The invariants: INV1 and INV2 of R24, and the form of the buffer's cells: canonical, and no byte at index `LEN` or
above (R21). -/
abbrev State.Inv (s : State) : Prop :=
  s.cursor ≤ 8 * s.len ∧ s.len ≤ s.cfg.cap ∧ s.cells.wf ∧ ∀ c ∈ s.cells, c.1 < s.len

/-- A step that goes on: neither a fault nor a refusal (R61). -/
def Safe (o : Host.Outcome State Fault Refusal) : Prop :=
  ∃ t, o = .next t

end Sys2Proof.Machine
end

