-- ==== Sys2Proof/Certificates/Slice0/Obligations.lean ====
section
/-! DEFINITION. The statements for the provers: the numbered rules of the spec, over every configuration and every state
that a statement's hypotheses admit. Nothing is proved here. -/

open Sys2Proof Sys2Proof.Machine

/-! ### The command word -/

/-- Decoding an encoded command gives it back, every operand at every value the encoding admits (R62 to R67). -/
def Obligations.DecodingTheEncodingGivesTheCommand : Prop :=
  ∀ i : Instr, i.WellFormed → decode (encode i) = .ok i

/-- Each word has one meaning: encoding what a word decodes to gives the word back (R62 to R67). -/
def Obligations.EncodingTheDecodedCommandGivesTheWord : Prop :=
  ∀ (w : CmdWord) (i : Instr), decode w = .ok i → encode i = w ∧ i.WellFormed

/-- A word is the command of a row of the opcode map exactly when its masked bits match (R66). -/
def Obligations.WordIsTheRowsCommandExactlyWhenItMatches : Prop :=
  ∀ (w : CmdWord), ∀ r ∈ opcodeRows,
    (w &&& r.mask = r.pattern ↔ ∃ i, decode w = .ok i ∧ i.opcode = r.opcode)

/-- R67: a word that matches a row is that row's command, the row is unique, the operands are the named fields, and a
word that matches no row is illegal. -/
def Obligations.RowLookupDecidesTheWord : Prop :=
  ∀ w : CmdWord,
    (∀ r ∈ opcodeRows, w &&& r.mask = r.pattern → ∃ i, decode w = .ok i ∧ i.opcode = r.opcode) ∧
    (∀ r₁ ∈ opcodeRows, ∀ r₂ ∈ opcodeRows, w &&& r₁.mask = r₁.pattern → w &&& r₂.mask = r₂.pattern → r₁ = r₂) ∧
    (∀ i, decode w = .ok i →
      match i with
      | .rd n => n = (w.extractLsb' 48 5).toNat + 1
      | .wr n value => n = (w.extractLsb' 48 5).toNat + 1 ∧ value = w.extractLsb' 0 32
      | .seek arg => arg = w.extractLsb' 0 32
      | .pos => True
      | .len => True
      | .clr => True
      | .enc t ch => t = (if w.getLsbD 48 then TSel.five else TSel.seven) ∧ ch = w.extractLsb' 0 32
      | .dec t word => t = (if w.getLsbD 48 then TSel.five else TSel.seven) ∧ word = w.extractLsb' 0 32
      | .lrcclr => True
      | .lrcadd t ch => t = (if w.getLsbD 48 then TSel.five else TSel.seven) ∧ ch = w.extractLsb' 0 32
      | .lrcget t => t = (if w.getLsbD 48 then TSel.five else TSel.seven)) ∧
    ((∀ r ∈ opcodeRows, w &&& r.mask ≠ r.pattern) ↔ ∃ e, decode w = .error e)

/-- The words of the spec's worked examples decode to the commands they stand for (R91 to R131). -/
def Obligations.ExampleWordsDecode : Prop :=
  decode 0x0106_0000_0000_0000 = .ok (.rd 7) ∧
  decode 0x0204_0000_0000_001A = .ok (.wr 5 0x1A) ∧
  decode 0x0300_0000_FFFF_FFFD = .ok (.seek 0xFFFF_FFFD) ∧
  decode 0x1001_0000_0000_003B = .ok (.enc .five 0x3B) ∧
  decode 0x1400_0000_0000_0000 = .ok (.lrcget .seven) ∧
  decode 0x0107_0000_0000_0001 = .error .argNotZero

/-- The response word: `STATUS` above `DATA`, with the five codes (R69). -/
def Obligations.ResponseWordHoldsStatusAndData : Prop :=
  ∀ r : Response, r.word.extractLsb' 0 32 = r.data ∧
    r.word.extractLsb' 32 8 =
      (match r.status with
        | .ok => (0x00 : BitVec 8)
        | .eod => 0x01
        | .invalidChar => 0x02
        | .overflow => 0x03
        | .illegal => 0x04)

/-! ### The step -/

/-- A step on a command word runs the command it decodes to, in the state with that move taken. -/
def Obligations.StepRunsTheDecodedCommand : Prop :=
  ∀ (s : State) (w : CmdWord) (rest : List HostMove) (i : Instr),
    s.moves = .command w :: rest → decode w = .ok i → step s = exec i { s with moves := rest }

/-- A word of the opcode table, presented as the host's next move, is run by the very next step. -/
def Obligations.PresentedTableWordRunsNext : Prop :=
  ∀ (s : State) (nbits w : Nat) (i : Instr),
    decodeTableWord nbits w = some i → step (s.withFetchWord nbits w) = exec i s

/-- R171: a word that matches no row is answered `ILLEGAL` with `DATA = 0` and changes nothing. -/
def Obligations.UnmatchedWordIsAnsweredIllegal : Prop :=
  ∀ (s : State) (w : CmdWord) (rest : List HostMove),
    s.moves = .command w :: rest → (∀ r ∈ opcodeRows, w &&& r.mask ≠ r.pattern) →
    step s = .next { s with moves := rest, responses := s.responses ++ [⟨.illegal, 0⟩] }

/-- With no host move pending the block waits unchanged. The model's choice of a step (log entry 3), from R185. -/
def Obligations.BlockWaitsWithoutAMove : Prop :=
  ∀ s : State, s.moves = [] → step s = .next s

/-- A reset move puts the four pieces of state at their reset values, whatever command it abandons, and gives no
response (R185, R186). That the host keeps its further moves and the responses it has is the model's (log entry 5). -/
def Obligations.ResetMoveEmptiesTheBlock : Prop :=
  ∀ (s : State) (abandoned : Option CmdWord) (rest : List HostMove), s.moves = .reset abandoned :: rest →
    ∃ t, step s = .next t ∧ t.bufBytes = [] ∧ t.len = 0 ∧ t.cursor = 0 ∧ t.acc = 0 ∧ t.cfg = s.cfg ∧
      t.moves = rest ∧ t.responses = s.responses

/-- R39: the state after reset, for every configuration. -/
def Obligations.ResetStateIsTheEmptyCodec : Prop :=
  ∀ c : Config, (State.resetWith c).len = 0 ∧ (State.resetWith c).bufBytes = [] ∧ (State.resetWith c).cursor = 0 ∧
    (State.resetWith c).acc = 0 ∧ (State.resetWith c).cfg = c ∧
    (State.resetWith c).cursor ≤ 8 * (State.resetWith c).len ∧ (State.resetWith c).len ≤ c.cap

/-- The invariants hold after reset for every configuration, and the reference configuration is well-formed. That
`State.reset` carries the reference configuration is the model's choice (log entry 2). -/
def Obligations.InvariantsHoldAfterReset : Prop :=
  (∀ c : Config, (State.resetWith c).Inv) ∧ State.reset.Inv ∧ State.reset.cfg.WF

/-- Every step keeps the invariants: INV1 and INV2 (R24), and the canonical form of the buffer's cells, none of which
lies at index `LEN` or above (R21; log entry 6). -/
def Obligations.EveryStepKeepsTheInvariants : Prop :=
  ∀ s t : State, s.Inv → step s = .next t → t.Inv

/-- No step from a state with the invariants stops (R61, R189). -/
def Obligations.NoStepStops : Prop :=
  ∀ s : State, s.Inv → Safe (step s)

/-- R61: every command word gets exactly one response, and that response, like the state after it, depends on nothing
but the state and the word: the host's later moves and the earlier responses have no part in it. -/
def Obligations.EveryWordGetsOneResponse : Prop :=
  ∀ (s : State) (w : CmdWord), s.Inv → ∃ (r : Response) (t : State),
    ∀ (rest : List HostMove) (earlier : List Response),
      step { s with moves := .command w :: rest, responses := earlier } =
        .next { t with moves := rest, responses := earlier ++ [r] }

/-- No step, reset included, writes the capacity or a table (R30, R55, R117). -/
def Obligations.NoStepWritesTheConfiguration : Prop :=
  ∀ s t : State, step s = .next t → t.cfg = s.cfg

/-- R170: a command whose response is not OK changes nothing, and its data is 0. -/
def Obligations.FailedCommandChangesNothing : Prop :=
  ∀ (s t : State) (w : CmdWord) (rest : List HostMove) (r : Response),
    s.moves = .command w :: rest → step s = .next t → t.responses = s.responses ++ [r] → r.status ≠ .ok →
    r.data = 0 ∧ t = { s with moves := rest, responses := s.responses ++ [r] }

/-- R166: each status other than OK is raised by its commands, exactly when its condition holds. -/
def Obligations.EachStatusIsRaisedExactlyWhenItsConditionHolds : Prop :=
  ∀ (s t : State) (w : CmdWord) (rest : List HostMove) (r : Response),
    s.moves = .command w :: rest → step s = .next t → t.responses = s.responses ++ [r] →
    (r.status = .eod ↔ ∃ n, decode w = .ok (.rd n) ∧ s.cursor + n > 8 * s.len) ∧
    (r.status = .invalidChar ↔
      ∃ u ch, (decode w = .ok (.enc u ch) ∨ decode w = .ok (.lrcadd u ch)) ∧
        (ch.toNat < u.base ∨ ch.toNat ≥ u.base + u.count)) ∧
    (r.status = .overflow ↔ ∃ n value, decode w = .ok (.wr n value) ∧ ceil8 (s.cursor + n) > s.cfg.cap) ∧
    (r.status = .illegal ↔ ∃ e, decode w = .error e) ∧
    (r.status ≠ .ok → r.data = 0)

/-- A TrackAlphabet or LRC command neither reads nor writes `BUF`, `LEN` or `CURSOR` (R20, R110, R125): with any other
codec in their place it does the same and leaves that codec as it is. -/
def Obligations.TrackCommandsDoNotSeeTheCodec : Prop :=
  ∀ (i : Instr) (s t : State) (cells : Memory) (len cursor : Nat),
    i.opcode ∈ [Opcode.enc, .dec, .lrcclr, .lrcadd, .lrcget] → exec i s = .next t →
    exec i { s with cells := cells, len := len, cursor := cursor } =
      .next { t with cells := cells, len := len, cursor := cursor }

/-- A BitCodec command neither reads nor writes `ACC` or the tables (R20, R90): with any others in their place it does
the same and leaves those as they are. -/
def Obligations.CodecCommandsDoNotSeeTheLrcOrTheTables : Prop :=
  ∀ (i : Instr) (s t : State) (acc : BitVec 7) (table7 : Vector (BitVec 7) 64) (table5 : Vector (BitVec 5) 16),
    i.opcode ∈ [Opcode.rd, .wr, .seek, .pos, .len, .clr] → exec i s = .next t →
    exec i { s with acc := acc, cfg := ⟨s.cfg.cap, table7, table5⟩ } =
      .next { t with acc := acc, cfg := ⟨s.cfg.cap, table7, table5⟩ }

/-- `LEN` never decreases but by CLR and by reset (R22). -/
def Obligations.LengthShrinksOnlyByClearOrReset : Prop :=
  ∀ s t : State, step s = .next t → t.len < s.len →
    (∃ w rest, s.moves = .command w :: rest ∧ decode w = .ok .clr) ∨ (∃ a rest, s.moves = .reset a :: rest)

/-- `CURSOR` moves by exactly `n` on a successful RD or WR of `n` bits, freely only by SEEK, and to 0 by CLR (R23). -/
def Obligations.CursorMovesOnlyAsItsCommandsSay : Prop :=
  ∀ (i : Instr) (s t : State), exec i s = .next t →
    t.cursor = s.cursor ∨ (∃ n, i = .rd n ∧ t.cursor = s.cursor + n) ∨
    (∃ n value, i = .wr n value ∧ t.cursor = s.cursor + n) ∨ (∃ arg, i = .seek arg) ∨ (i = .clr ∧ t.cursor = 0)

/-- Nothing writes `ACC` but LRCADD, LRCCLR and reset, and only the last two clear it (R20, R193). -/
def Obligations.AccumulatorIsWrittenOnlyByLrcCommandsAndReset : Prop :=
  ∀ s t : State, step s = .next t → t.acc ≠ s.acc →
    (∃ w rest u ch x, s.moves = .command w :: rest ∧ decode w = .ok (.lrcadd u ch) ∧
      encChar s.cfg u ch.toNat = some x ∧ t.acc = s.acc ^^^ x.setWidth 7) ∨
    (∃ w rest, s.moves = .command w :: rest ∧ decode w = .ok .lrcclr ∧ t.acc = 0) ∨
    (∃ a rest, s.moves = .reset a :: rest ∧ t.acc = 0)

/-! ### The buffer -/

/-- R91: RD of `n` bits. When fewer than `n` bits remain: `EOD`, nothing changed. Else the next `n` bits, the first of
them the most significant, and the cursor moved past them; nothing else is changed, no byte of memory either. -/
def Obligations.RdAnswersTheNextBits : Prop :=
  ∀ (n : Nat) (s : State), 1 ≤ n → n ≤ 32 →
    (s.cursor + n > 8 * s.len →
      exec (.rd n) s = .next { s with responses := s.responses ++ [⟨.eod, 0⟩] }) ∧
    (s.cursor + n ≤ 8 * s.len →
      ∃ v : Word32,
        exec (.rd n) s = .next { s with cursor := s.cursor + n, responses := s.responses ++ [⟨.ok, v⟩] } ∧
        v.toNat < 2 ^ n ∧ ∀ j, j < n → v.getLsbD (n - 1 - j) = streamBit s (s.cursor + j))

/-- Reading in pieces gives the same bits: `MemRead(k, a+b) = {MemRead(k, a), MemRead(k+a, b)}` (R42, R92). -/
def Obligations.ReadsInPiecesConcatenate : Prop :=
  ∀ (s : State) (k a b : Nat), 1 ≤ a → 1 ≤ b → a + b ≤ 32 → k + a + b ≤ 8 * s.len →
    ∃ x y z : Word32, memRead s k a = some x ∧ memRead s (k + a) b = some y ∧ memRead s k (a + b) = some z ∧
      z.toNat = x.toNat * 2 ^ b + y.toNat

/-- R93: WR of the low `n` bits of a value. When the write would need more than `CAP` bytes: `OVERFLOW`, nothing changed.
Else the `n` bits at the cursor are the value's, the first its most significant; every other bit that was in the buffer
is as before, and so is every byte outside those the write covers; the bits that growth adds are 0; the buffer is as long
as needed and no longer; the cursor moves past the bits; no other register changes. -/
def Obligations.WrReplacesTheBitsAtTheCursor : Prop :=
  ∀ (n : Nat) (value : Word32) (s : State), s.Inv → 1 ≤ n → n ≤ 32 →
    (ceil8 (s.cursor + n) > s.cfg.cap →
      exec (.wr n value) s = .next { s with responses := s.responses ++ [⟨.overflow, 0⟩] }) ∧
    (ceil8 (s.cursor + n) ≤ s.cfg.cap →
      ∃ t : State, exec (.wr n value) s = .next t ∧
        t = { s with cells := t.cells, len := max s.len (ceil8 (s.cursor + n)), cursor := s.cursor + n,
                     responses := s.responses ++ [⟨.ok, 0⟩] } ∧
        (∀ j, j < n → streamBit t (s.cursor + j) = value.getLsbD (n - 1 - j)) ∧
        (∀ m, m < 8 * s.len → (m < s.cursor ∨ s.cursor + n ≤ m) → streamBit t m = streamBit s m) ∧
        (∀ m, 8 * s.len ≤ m → s.cursor + n ≤ m → m < 8 * t.len → streamBit t m = false) ∧
        (∀ i, (i < s.cursor / 8 ∨ (s.cursor + n - 1) / 8 < i) → t.byteAt? i = s.byteAt? i))

/-- A WR never stores bits of the operand above its low `n`, and 0 over 1 gives 0 (R93 corner cases a and e). -/
def Obligations.WrIgnoresTheUpperBits : Prop :=
  ∀ (n : Nat) (v v' : Word32) (s : State), 1 ≤ n → n ≤ 32 → v.toNat % 2 ^ n = v'.toNat % 2 ^ n →
    exec (.wr n v) s = exec (.wr n v') s

/-- After MemWrite, MemRead of the same bits gives the value (R47). -/
def Obligations.MemReadAfterMemWriteGivesTheValue : Prop :=
  ∀ (s u : State) (k n : Nat) (v : Word32), s.cells.wf → memWrite s k n v = some u → memRead u k n = some v

/-- R48: MemWrite leaves every other bit of the buffer as it was, and the bits it adds beyond its own are 0. -/
def Obligations.MemWriteIsLocal : Prop :=
  ∀ (s u : State) (k n : Nat) (v : Word32), s.Inv → memWrite s k n v = some u →
    (∀ m, (m < k ∨ (k + n ≤ m ∧ m < 8 * s.len)) → streamBit u m = streamBit s m) ∧
    (∀ m, max (k + n) (8 * s.len) ≤ m → m < 8 * u.len → streamBit u m = false)

/-- Doing a MemWrite twice leaves the same buffer as doing it once (R51). -/
def Obligations.MemWriteTwiceIsOnce : Prop :=
  ∀ (s u : State) (k n : Nat) (v : Word32), s.Inv → memWrite s k n v = some u → memWrite u k n v = some u

/-- The cells represent `BUF` faithfully: two states with the invariants whose buffers are the same sequence of bytes
hold the same cells and the same length (R21; log entry 6). -/
def Obligations.EqualBuffersAreEqualData : Prop :=
  ∀ s t : State, s.Inv → t.Inv → s.bufBytes = t.bufBytes → s.cells = t.cells ∧ s.len = t.len

/-- R95: SEEK moves the cursor by the signed operand, clamped to the buffer, and changes nothing else. -/
def Obligations.SeekClampsTheCursor : Prop :=
  ∀ (arg : Word32) (s : State),
    exec (.seek arg) s =
      .next { s with cursor := (min (max ((s.cursor : Int) + arg.toInt) 0) (8 * (s.len : Int))).toNat,
                     responses := s.responses ++ [⟨.ok, 0⟩] }

/-- The idioms of R95: `SEEK -2^31` rewinds and `SEEK 2^31-1` reaches the end, from any position. -/
def Obligations.SeekExtremesReachBothEnds : Prop :=
  ∀ s : State, s.Inv → s.cfg.CapOk →
    exec (.seek 0x80000000) s = .next { s with cursor := 0, responses := s.responses ++ [⟨.ok, 0⟩] } ∧
    exec (.seek 0x7FFFFFFF) s = .next { s with cursor := 8 * s.len, responses := s.responses ++ [⟨.ok, 0⟩] }

/-- POS and LEN complete in every state with one OK response and no other change, as R97 and R98 say ("always OK", state
written: none). In a state with the invariants and a legal capacity (R8, R24) the data is the cursor, below `2^31`, and the
length, at most `CAP`; elsewhere the 32 bits may truncate it (log entry 12), and nothing is said of it. -/
def Obligations.PosAndLenAnswerTheRegisters : Prop :=
  ∀ s : State,
    (∃ d : Word32, exec .pos s = .next { s with responses := s.responses ++ [⟨.ok, d⟩] } ∧
      (s.Inv → s.cfg.CapOk → d.toNat = s.cursor ∧ d.toNat < 2 ^ 31)) ∧
    (∃ d : Word32, exec .len s = .next { s with responses := s.responses ++ [⟨.ok, d⟩] } ∧
      (s.Inv → s.cfg.CapOk → d.toNat = s.len ∧ d.toNat ≤ s.cfg.cap))

/-- R99: CLR empties the codec; the accumulator and everything else keep their values. -/
def Obligations.ClrEmptiesTheCodec : Prop :=
  ∀ s : State, ∃ t : State, exec .clr s = .next t ∧ t.bufBytes = [] ∧
    t = { s with cells := [], len := 0, cursor := 0, responses := s.responses ++ [⟨.ok, 0⟩] }

/-- R94: WR, SEEK back, RD of the same width responds with the value's low bits, and leaves the cursor past them. -/
def Obligations.WriteSeekReadGivesTheValueBack : Prop :=
  ∀ (n : Nat) (value : Word32) (s : State) (rest : List HostMove), s.Inv → 1 ≤ n → n ≤ 32 →
    ceil8 (s.cursor + n) ≤ s.cfg.cap →
    s.moves = .command (encode (.wr n value)) :: .command (encode (.seek (BitVec.ofInt 32 (-(n : Int))))) ::
      .command (encode (.rd n)) :: rest →
    ∃ (t : State) (v : Word32), Host.Core.run Sys2Proof.core 3 s = .next t ∧ v.toNat = value.toNat % 2 ^ n ∧
      t.responses = s.responses ++ [⟨.ok, 0⟩, ⟨.ok, 0⟩, ⟨.ok, v⟩] ∧ t.cursor = s.cursor + n ∧ t.moves = rest

/-- CLR and LRCCLR, in either order, lead to the reset state (R187, R188). -/
def Obligations.ClearingEverythingIsReset : Prop :=
  ∀ (s : State) (rest : List HostMove) (i j : Instr), (i = .clr ∧ j = .lrcclr) ∨ (i = .lrcclr ∧ j = .clr) →
    s.moves = .command (encode i) :: .command (encode j) :: rest →
    Host.Core.run Sys2Proof.core 2 s =
      .next { State.resetWith s.cfg with moves := rest, responses := s.responses ++ [⟨.ok, 0⟩, ⟨.ok, 0⟩] }

/-! ### The lookups and the LRC -/

/-- R115: ENC answers the table's entry for a character in the table's range, `INVALID_CHAR` for any other of the `2^32`
codes, and changes nothing. -/
def Obligations.EncAnswersTheTableEntry : Prop :=
  ∀ (s : State) (ch : Word32),
    (∀ h : 0x20 ≤ ch.toNat ∧ ch.toNat ≤ 0x5F,
      exec (.enc .seven ch) s =
        .next { s with responses := s.responses ++ [⟨.ok, (s.cfg.table7[ch.toNat - 0x20]'(by omega)).setWidth 32⟩] }) ∧
    (¬ (0x20 ≤ ch.toNat ∧ ch.toNat ≤ 0x5F) →
      exec (.enc .seven ch) s = .next { s with responses := s.responses ++ [⟨.invalidChar, 0⟩] }) ∧
    (∀ h : 0x30 ≤ ch.toNat ∧ ch.toNat ≤ 0x3F,
      exec (.enc .five ch) s =
        .next { s with responses := s.responses ++ [⟨.ok, (s.cfg.table5[ch.toNat - 0x30]'(by omega)).setWidth 32⟩] }) ∧
    (¬ (0x30 ≤ ch.toNat ∧ ch.toNat ≤ 0x3F) →
      exec (.enc .five ch) s = .next { s with responses := s.responses ++ [⟨.invalidChar, 0⟩] })

/-- R116: DEC answers the character of a word that has an entry, `'~'` for any other of the `2^32` words, always with OK,
and changes nothing. -/
def Obligations.DecAnswersTheCharacter : Prop :=
  ∀ (s : State) (u : TSel) (word : Word32), s.cfg.TableWF u →
    ∃ d : Word32, exec (.dec u word) s = .next { s with responses := s.responses ++ [⟨.ok, d⟩] } ∧
      (∀ i (h : i < u.count), (s.cfg.table u)[i].toNat = word.toNat → d.toNat = u.base + i) ∧
      ((∀ i (h : i < u.count), (s.cfg.table u)[i].toNat ≠ word.toNat) → d = 0x7E)

/-- The entries of a well-formed table are exactly the words of odd popcount (R32). -/
def Obligations.WellFormedTableHoldsTheOddWords : Prop :=
  ∀ (c : Config) (u : TSel), c.TableWF u → ∀ v : BitVec u.width, v ∈ (c.table u).toList ↔ parity v = true

/-- R112: on a well-formed table `enc` is injective and every value has odd popcount. -/
def Obligations.EncIsInjectiveWithOddValues : Prop :=
  ∀ (c : Config) (u : TSel), c.TableWF u → ∀ (ch ch' : Nat) (x : BitVec u.width), encChar c u ch = some x →
    parity x = true ∧ (encChar c u ch' = some x → ch' = ch)

/-- R114: for a well-formed table, when a word decodes to `'~'`; `'~'` is no entry's character; the two round trips; and
a single flipped bit in a valid codeword always decodes to `'~'`. -/
def Obligations.LookupsRoundTripAndMarkBadWords : Prop :=
  ∀ (c : Config) (u : TSel), c.TableWF u →
    (∀ word : Nat, decWord c u word = 0x7E ↔ word ≥ 2 ^ u.width ∨ parity (BitVec.ofNat u.width word) = false) ∧
    (∀ i (h : i < u.count), decWord c u ((c.table u)[i]).toNat ≠ 0x7E) ∧
    (∀ (ch : Nat) (x : BitVec u.width), encChar c u ch = some x → decWord c u x.toNat = ch) ∧
    (∀ word : Nat, decWord c u word ≠ 0x7E → ∃ x, encChar c u (decWord c u word) = some x ∧ x.toNat = word) ∧
    (∀ (ch : Nat) (x : BitVec u.width) (j : Nat), encChar c u ch = some x → j < u.width →
      decWord c u (x ^^^ BitVec.twoPow u.width j).toNat = 0x7E)

/-- R129, R130: LRCCLR clears the accumulator; LRCADD folds the table's entry for the character into it, and refuses a
character with no entry with the accumulator unchanged; neither changes anything else. -/
def Obligations.LrcCommandsFoldTheCodewords : Prop :=
  ∀ (s : State) (ch : Word32),
    exec .lrcclr s = .next { s with acc := 0, responses := s.responses ++ [⟨.ok, 0⟩] } ∧
    (∀ h : 0x20 ≤ ch.toNat ∧ ch.toNat ≤ 0x5F,
      exec (.lrcadd .seven ch) s =
        .next { s with acc := s.acc ^^^ s.cfg.table7[ch.toNat - 0x20]'(by omega),
                       responses := s.responses ++ [⟨.ok, 0⟩] }) ∧
    (¬ (0x20 ≤ ch.toNat ∧ ch.toNat ≤ 0x5F) →
      exec (.lrcadd .seven ch) s = .next { s with responses := s.responses ++ [⟨.invalidChar, 0⟩] }) ∧
    (∀ h : 0x30 ≤ ch.toNat ∧ ch.toNat ≤ 0x3F,
      exec (.lrcadd .five ch) s =
        .next { s with acc := s.acc ^^^ (s.cfg.table5[ch.toNat - 0x30]'(by omega)).setWidth 7,
                       responses := s.responses ++ [⟨.ok, 0⟩] }) ∧
    (¬ (0x30 ≤ ch.toNat ∧ ch.toNat ≤ 0x3F) →
      exec (.lrcadd .five ch) s = .next { s with responses := s.responses ++ [⟨.invalidChar, 0⟩] })

/-- R131: LRCGET answers the accumulator's bits above bit 0, within the selected width, with their parity as bit 0, and
changes nothing. -/
def Obligations.LrcgetAnswersTheFinishedWord : Prop :=
  ∀ s : State,
    (∃ l : Word32, exec (.lrcget .seven) s = .next { s with responses := s.responses ++ [⟨.ok, l⟩] } ∧
      (∀ i, 1 ≤ i → i < 7 → l.getLsbD i = s.acc.getLsbD i) ∧ (∀ i, 7 ≤ i → l.getLsbD i = false) ∧
      l.getLsbD 0 = (s.acc.getLsbD 1 ^^ s.acc.getLsbD 2 ^^ s.acc.getLsbD 3 ^^ s.acc.getLsbD 4 ^^ s.acc.getLsbD 5 ^^
        s.acc.getLsbD 6)) ∧
    (∃ l : Word32, exec (.lrcget .five) s = .next { s with responses := s.responses ++ [⟨.ok, l⟩] } ∧
      (∀ i, 1 ≤ i → i < 5 → l.getLsbD i = s.acc.getLsbD i) ∧ (∀ i, 5 ≤ i → l.getLsbD i = false) ∧
      l.getLsbD 0 = (s.acc.getLsbD 1 ^^ s.acc.getLsbD 2 ^^ s.acc.getLsbD 3 ^^ s.acc.getLsbD 4))

/-- R133: LRCCLR, an LRCADD for each character, LRCGET respond OK throughout and end with `lrc` of the sequence; the same
without the LRCCLR when the accumulator is 0. -/
def Obligations.LrcCommandsComputeTheLrc : Prop :=
  ∀ (s : State) (u : TSel) (chars : List Word32) (l : BitVec u.width) (rest : List HostMove),
    lrc s.cfg u (chars.map BitVec.toNat) = some l →
    (s.moves = ((Instr.lrcclr :: chars.map (Instr.lrcadd u)) ++ [Instr.lrcget u]).map (fun i => HostMove.command (encode i)) ++
        rest →
      ∃ t, Host.Core.run Sys2Proof.core (chars.length + 2) s = .next t ∧ t.moves = rest ∧
        t.responses = s.responses ++ List.replicate (chars.length + 1) ⟨.ok, 0⟩ ++ [⟨.ok, l.setWidth 32⟩]) ∧
    (s.acc = 0 →
      s.moves = (chars.map (Instr.lrcadd u) ++ [Instr.lrcget u]).map (fun i => HostMove.command (encode i)) ++ rest →
      ∃ t, Host.Core.run Sys2Proof.core (chars.length + 1) s = .next t ∧ t.moves = rest ∧
        t.responses = s.responses ++ List.replicate chars.length ⟨.ok, 0⟩ ++ [⟨.ok, l.setWidth 32⟩])

/-- R135: an LRC word has even popcount for every table, and under a well-formed table it never decodes to a character. -/
def Obligations.LrcWordIsEvenAndDecodesToNothing : Prop :=
  ∀ (c : Config) (u : TSel) (chars : List Nat) (l : BitVec u.width), lrc c u chars = some l →
    parity l = false ∧ (c.TableWF u → decWord c u l.toNat = 0x7E)

/-- R136 and R137: the column law, and the parity-column law for a well-formed table: the codewords' low bits together
with the LRC word's low bit give the number of characters modulo 2. -/
def Obligations.LrcColumnLaws : Prop :=
  ∀ (c : Config) (u : TSel) (chars : List Nat) (cs : List (BitVec u.width)) (l : BitVec u.width),
    chars.map (encChar c u) = cs.map some → lrc c u chars = some l →
    (∀ i, 1 ≤ i → i < u.width → (cs.map fun x => x.getLsbD i).foldr xor (l.getLsbD i) = false) ∧
    (c.TableWF u →
      (((cs.map fun x => x.getLsbD 0).foldr xor false) ^^ l.getLsbD 0) = decide (chars.length % 2 = 1))

/-! ### The host sequences -/

/-- R100, loading: CLR, WR 8 for each byte, rewind leave the buffer holding the bytes and the cursor at 0. -/
def Obligations.LoadingLeavesTheBytes : Prop :=
  ∀ (s : State) (bytes : List Byte), s.cfg.CapOk → bytes.length ≤ s.cfg.cap →
    ∃ t, loadBytes bytes s = .done () t ∧ t.bufBytes = bytes ∧ t.len = bytes.length ∧ t.cursor = 0 ∧
      t.acc = s.acc ∧ t.cfg = s.cfg ∧ t.Inv

/-- R100, unloading: rewind, then RD 8 until `EOD` answers exactly the bytes of the buffer and changes none. -/
def Obligations.UnloadingAnswersTheBytes : Prop :=
  ∀ s : State, s.Inv → s.cfg.CapOk →
    ∃ t, unloadBytes s = .done s.bufBytes t ∧ t.cells = s.cells ∧ t.len = s.len ∧ t.cursor = 8 * s.len

/-- The effect of PUTC when it completes (R147). -/
def Obligations.PutcAppendsTheCodeword : Prop :=
  ∀ (s : State) (u : TSel) (ch : Word32) (x : BitVec u.width), s.Inv → encChar s.cfg u ch.toNat = some x →
    ceil8 (s.cursor + u.width) ≤ s.cfg.cap →
    ∃ t, putc u ch s = .done () t ∧ t.cursor = s.cursor + u.width ∧ t.acc = s.acc ^^^ x.setWidth 7 ∧
      (∀ j, j < u.width → streamBit t (s.cursor + j) = x.getLsbD (u.width - 1 - j)) ∧
      (∀ m, m < s.cursor → streamBit t m = streamBit s m)

/-- R151 (and the format of R77): the buffer that ENCODE_TRACK builds, its length, the cursor and the accumulator. -/
def Obligations.EncodedTrackIsThePackedStream : Prop :=
  ∀ (s : State) (check : Bool) (u : TSel) (chars : List Word32) (cs : List (BitVec u.width)) (l : BitVec u.width),
    chars.map (fun ch => encChar s.cfg u ch.toNat) = cs.map some → lrc s.cfg u (chars.map BitVec.toNat) = some l →
    ceil8 (u.width * (chars.length + 1)) ≤ s.cfg.cap →
    ∃ t, encodeTrack check u chars s = .done () t ∧
      t.len = ceil8 (u.width * (chars.length + 1)) ∧ t.cursor = u.width * (chars.length + 1) ∧
      t.acc = (cs.foldr (fun x p => x ^^^ p) 0).setWidth 7 ∧
      (∀ (k : Nat) (x : BitVec u.width), cs[k]? = some x →
        ∀ j, j < u.width → streamBit t (u.width * k + j) = x.getLsbD (u.width - 1 - j)) ∧
      (∀ j, j < u.width → streamBit t (u.width * chars.length + j) = l.getLsbD (u.width - 1 - j)) ∧
      (∀ m, u.width * (chars.length + 1) ≤ m → m < 8 * t.len → streamBit t m = false)

/-- A character with no entry stops ENCODE_TRACK with `INVALID_CHAR` and the block's state untouched (R150). -/
def Obligations.UnmappableCharacterStopsEncoding : Prop :=
  ∀ (s : State) (check : Bool) (u : TSel) (chars : List Word32),
    (∃ ch ∈ chars, encChar s.cfg u ch.toNat = none) →
    ∃ t, encodeTrack check u chars s = .stopped .invalidChar t ∧ t = { s with responses := t.responses }

/-- R154: DECODE_TRACK answers one character for each whole codeword of the buffer, in order, each the decoding of the
bits at its place; the bits left over are not read. -/
def Obligations.DecodedTrackIsEveryWholeCodeword : Prop :=
  ∀ (s : State) (u : TSel) (bytes : List Byte), s.cfg.CapOk → bytes.length ≤ s.cfg.cap →
    ∃ ps t, decodeTrack u bytes s = .done ps t ∧ ps.length = 8 * bytes.length / u.width ∧
      t.cursor = u.width * (8 * bytes.length / u.width) ∧ t.bufBytes = bytes ∧
      ∀ (i : Nat) (p : Word32 × Word32), ps[i]? = some p →
        memRead t (u.width * i) u.width = some p.1 ∧ p.2.toNat = decWord s.cfg u p.1.toNat

/-- TRIM takes the first `';'` and the first `'?'` after it, and answers the slice between them, both included, unless
it holds a `'~'` (R156). -/
def Obligations.TrimTakesTheFirstSentinels : Prop :=
  ∀ before mid after words : List Word32, startSentinel ∉ before → endSentinel ∉ mid →
    trim (before ++ startSentinel :: mid ++ endSentinel :: after) words =
      if noEntryMark ∈ mid then .corruptData else .valid (startSentinel :: mid ++ [endSentinel])

/-- R159: an all-zero buffer decodes to `'~'`s alone and is No Data; a sequence with no `';'` followed by a `'?'` and some
non-zero codeword is Corrupt Data. -/
def Obligations.ZeroBufferIsNoDataAndUnterminatedIsCorrupt : Prop :=
  (∀ (s : State) (u : TSel) (m : Nat), s.cfg.CapOk → s.cfg.TableWF u → m ≤ s.cfg.cap →
    ∃ ps t, decodeTrack u (List.replicate m 0) s = .done ps t ∧ ps = List.replicate (8 * m / u.width) (0, 0x7E) ∧
      trim (ps.map Prod.snd) (ps.map Prod.fst) = .noData) ∧
  (∀ seq words : List Word32,
    (¬ ∃ b e : Nat, b < e ∧ seq[b]? = some startSentinel ∧ seq[e]? = some endSentinel) → (∃ v ∈ words, v ≠ 0) →
    trim seq words = .corruptData)

/-- R158: encoding a track and decoding the bytes gives the characters back, then `'~'` for the LRC word, then one more
`'~'` when the padding holds a whole codeword; and TRIM answers the track. -/
def Obligations.TrackRoundTrip : Prop :=
  ∀ (s : State) (check : Bool) (u : TSel) (chars : List Word32), s.cfg.CapOk → s.cfg.TableWF u →
    2 ≤ chars.length → (∀ ch ∈ chars, ∃ x, encChar s.cfg u ch.toNat = some x) →
    chars.head? = some startSentinel → chars.getLast? = some endSentinel → endSentinel ∉ chars.dropLast →
    ceil8 (u.width * (chars.length + 1)) ≤ s.cfg.cap →
    ∃ bytes t ps v, encodeTrackBytes check u chars s = .done bytes t ∧ decodeTrack u bytes t = .done ps v ∧
      ps.map Prod.snd = chars ++ [noEntryMark] ++
        (if u.width ≤ 8 * ceil8 (u.width * (chars.length + 1)) - u.width * (chars.length + 1) then [noEntryMark]
          else []) ∧
      trim (ps.map Prod.snd) (ps.map Prod.fst) = .valid chars

/-! ### The assembler and the reference tables -/

/-- The assembler cannot produce an illegal word (R85). -/
def Obligations.AssembledWordsAreNeverIllegal : Prop :=
  ∀ (text : String) (ws : List CmdWord), assemble text = some ws → ∀ w ∈ ws, ∃ i, decode w = .ok i

/-- Every row of R85's table: the operands it takes, the command each gives, and the operands out of range that it
refuses. That ENC, DEC and LRCADD refuse an operand outside `0..2^32-1`, the range of `ARG`, is the model's reading (log
entry 11). -/
def Obligations.AssemblerFollowsItsTable : Prop :=
  (∀ n : Int, asmInstr .rd [n] = if 1 ≤ n ∧ n ≤ 32 then some (.rd n.toNat) else none) ∧
  (∀ n v : Int, asmInstr .wr [n, v] =
    if (1 ≤ n ∧ n ≤ 32) ∧ 0 ≤ v ∧ v < 2 ^ 32 then some (.wr n.toNat (BitVec.ofNat 32 v.toNat)) else none) ∧
  (∀ d : Int, asmInstr .seek [d] =
    if -(2 ^ 31) ≤ d ∧ d ≤ 2 ^ 31 - 1 then some (.seek (BitVec.ofInt 32 d)) else none) ∧
  asmInstr .pos [] = some .pos ∧ asmInstr .len [] = some .len ∧ asmInstr .clr [] = some .clr ∧
  (∀ (u : TSel) (v : Int), asmInstr (.enc u) [v] =
    if 0 ≤ v ∧ v < 2 ^ 32 then some (.enc u (BitVec.ofNat 32 v.toNat)) else none) ∧
  (∀ (u : TSel) (v : Int), asmInstr (.dec u) [v] =
    if 0 ≤ v ∧ v < 2 ^ 32 then some (.dec u (BitVec.ofNat 32 v.toNat)) else none) ∧
  asmInstr .lrcclr [] = some .lrcclr ∧
  (∀ (u : TSel) (v : Int), asmInstr (.lrcadd u) [v] =
    if 0 ≤ v ∧ v < 2 ^ 32 then some (.lrcadd u (BitVec.ofNat 32 v.toNat)) else none) ∧
  (∀ u : TSel, asmInstr (.lrcget u) [] = some (.lrcget u))

/-- R81, R82: the reference tables hold the reversed offset above a bit that makes the popcount odd, and their entries are
distinct. -/
def Obligations.ReferenceTablesFollowTheirFormula : Prop :=
  (∀ i : Fin 64, (∀ j : Fin 6, refIso7[i].getLsbD (6 - j) = i.val.testBit j) ∧ parity refIso7[i] = true) ∧
  (∀ i : Fin 16, (∀ j : Fin 4, refIso5[i].getLsbD (4 - j) = i.val.testBit j) ∧ parity refIso5[i] = true) ∧
  refIso7.toList.Nodup ∧ refIso5.toList.Nodup
end

