-- ==== Sys2Proof/Laws/State.lean ====
section
/-! SUPPORT. One lemma for each field of the state under each update of Machine/Ops.lean, so that no proof unfolds a
record update. -/

namespace Sys2Proof.Machine

@[simp] theorem State.respond_cfg (s : State) (r : Response) : (s.respond r).cfg = s.cfg := rfl
@[simp] theorem State.respond_cells (s : State) (r : Response) : (s.respond r).cells = s.cells := rfl
@[simp] theorem State.respond_len (s : State) (r : Response) : (s.respond r).len = s.len := rfl
@[simp] theorem State.respond_cursor (s : State) (r : Response) : (s.respond r).cursor = s.cursor := rfl
@[simp] theorem State.respond_acc (s : State) (r : Response) : (s.respond r).acc = s.acc := rfl
@[simp] theorem State.respond_moves (s : State) (r : Response) : (s.respond r).moves = s.moves := rfl
@[simp] theorem State.respond_responses (s : State) (r : Response) : (s.respond r).responses = s.responses ++ [r] := rfl

@[simp] theorem State.respondOk_cfg (s : State) (d : Word32) : (s.respondOk d).cfg = s.cfg := rfl
@[simp] theorem State.respondOk_cells (s : State) (d : Word32) : (s.respondOk d).cells = s.cells := rfl
@[simp] theorem State.respondOk_len (s : State) (d : Word32) : (s.respondOk d).len = s.len := rfl
@[simp] theorem State.respondOk_cursor (s : State) (d : Word32) : (s.respondOk d).cursor = s.cursor := rfl
@[simp] theorem State.respondOk_acc (s : State) (d : Word32) : (s.respondOk d).acc = s.acc := rfl
@[simp] theorem State.respondOk_moves (s : State) (d : Word32) : (s.respondOk d).moves = s.moves := rfl
@[simp] theorem State.respondOk_responses (s : State) (d : Word32) : (s.respondOk d).responses = s.responses ++ [⟨.ok, d⟩] := rfl

@[simp] theorem State.raise_cfg (s : State) (st : Status) : (s.raise st).cfg = s.cfg := rfl
@[simp] theorem State.raise_cells (s : State) (st : Status) : (s.raise st).cells = s.cells := rfl
@[simp] theorem State.raise_len (s : State) (st : Status) : (s.raise st).len = s.len := rfl
@[simp] theorem State.raise_cursor (s : State) (st : Status) : (s.raise st).cursor = s.cursor := rfl
@[simp] theorem State.raise_acc (s : State) (st : Status) : (s.raise st).acc = s.acc := rfl
@[simp] theorem State.raise_moves (s : State) (st : Status) : (s.raise st).moves = s.moves := rfl
@[simp] theorem State.raise_responses (s : State) (st : Status) : (s.raise st).responses = s.responses ++ [⟨st, 0⟩] := rfl

@[simp] theorem setBit_cfg (s : State) (k : Nat) (b : Bool) : (setBit s k b).cfg = s.cfg := rfl
@[simp] theorem setBit_cells (s : State) (k : Nat) (b : Bool) : (setBit s k b).cells = s.cells.write (k / 8) (replaceBit (s.cells.read (k / 8)) (7 - k % 8) b) := rfl
@[simp] theorem setBit_len (s : State) (k : Nat) (b : Bool) : (setBit s k b).len = s.len := rfl
@[simp] theorem setBit_cursor (s : State) (k : Nat) (b : Bool) : (setBit s k b).cursor = s.cursor := rfl
@[simp] theorem setBit_acc (s : State) (k : Nat) (b : Bool) : (setBit s k b).acc = s.acc := rfl
@[simp] theorem setBit_moves (s : State) (k : Nat) (b : Bool) : (setBit s k b).moves = s.moves := rfl
@[simp] theorem setBit_responses (s : State) (k : Nat) (b : Bool) : (setBit s k b).responses = s.responses := rfl

@[simp] theorem grow_cfg (s : State) (l : Nat) : (grow s l).cfg = s.cfg := rfl
@[simp] theorem grow_cells (s : State) (l : Nat) : (grow s l).cells = s.cells := rfl
@[simp] theorem grow_len (s : State) (l : Nat) : (grow s l).len = l := rfl
@[simp] theorem grow_cursor (s : State) (l : Nat) : (grow s l).cursor = s.cursor := rfl
@[simp] theorem grow_acc (s : State) (l : Nat) : (grow s l).acc = s.acc := rfl
@[simp] theorem grow_moves (s : State) (l : Nat) : (grow s l).moves = s.moves := rfl
@[simp] theorem grow_responses (s : State) (l : Nat) : (grow s l).responses = s.responses := rfl

@[simp] theorem State.hostReset_cfg (s : State) : (s.hostReset).cfg = s.cfg := rfl
@[simp] theorem State.hostReset_cells (s : State) : (s.hostReset).cells = [] := rfl
@[simp] theorem State.hostReset_len (s : State) : (s.hostReset).len = 0 := rfl
@[simp] theorem State.hostReset_cursor (s : State) : (s.hostReset).cursor = 0 := rfl
@[simp] theorem State.hostReset_acc (s : State) : (s.hostReset).acc = 0 := rfl
@[simp] theorem State.hostReset_moves (s : State) : (s.hostReset).moves = s.moves := rfl
@[simp] theorem State.hostReset_responses (s : State) : (s.hostReset).responses = s.responses := rfl

@[simp] theorem State.resetWith_cfg (c : Config) : (State.resetWith c).cfg = c := rfl
@[simp] theorem State.resetWith_cells (c : Config) : (State.resetWith c).cells = [] := rfl
@[simp] theorem State.resetWith_len (c : Config) : (State.resetWith c).len = 0 := rfl
@[simp] theorem State.resetWith_cursor (c : Config) : (State.resetWith c).cursor = 0 := rfl
@[simp] theorem State.resetWith_acc (c : Config) : (State.resetWith c).acc = 0 := rfl
@[simp] theorem State.resetWith_moves (c : Config) : (State.resetWith c).moves = [] := rfl
@[simp] theorem State.resetWith_responses (c : Config) : (State.resetWith c).responses = [] := rfl

@[simp] theorem State.withFetchWord_moves (s : State) (nbits w : Nat) :
    (s.withFetchWord nbits w).moves = .command (tableWord nbits w) :: s.moves := rfl

@[simp] theorem State.reset_eq : State.reset = State.resetWith Config.reference := rfl

@[simp] theorem completed_eq (s : State) : completed s = .next s := rfl

@[simp] theorem effectiveBit_eq (s : State) : effectiveBit s = s.cursor := rfl

/-- What `ifDefined` can answer: the value's next state, or the model's own fault. -/
theorem ifDefined_eq_next {α : Type} {x : Option α} {f : α → State} {t : State} :
    ifDefined x f = .next t ↔ ∃ a, x = some a ∧ t = f a := by
  cases x <;> simp [ifDefined, eq_comm]

@[simp] theorem ifDefined_some {α : Type} (a : α) (f : α → State) : ifDefined (some a) f = .next (f a) := rfl

end Sys2Proof.Machine
end

