-- ==== Sys2Proof/Laws/Memory.lean ====
section
/-! SUPPORT. The cells of the buffer: what a read sees after a write, and that a write keeps the canonical form. -/

namespace Sys2Proof.Machine

@[simp] theorem Memory.read_nil (i : Nat) : Memory.read [] i = unlistedByte := rfl

theorem Memory.read_cons (c : Host.Cell) (m : Memory) (i : Nat) :
    Memory.read (c :: m) i = if c.1 = i then c.2 else m.read i := rfl

/-- An index that no cell lists reads as the unlisted byte. -/
theorem Memory.read_unlisted {m : Memory} {i : Nat} (h : ∀ c ∈ m, c.1 ≠ i) : m.read i = unlistedByte := by
  induction m with
  | nil => rfl
  | cons c m ih =>
    rw [read_cons, if_neg (h c (by simp))]
    exact ih fun d hd => h d (by simp [hd])

theorem Memory.wf_nil : Memory.wf [] := by simp [Memory.wf]

theorem Memory.wf_tail {c : Host.Cell} {m : Memory} (h : Memory.wf (c :: m)) : m.wf :=
  ⟨(List.pairwise_cons.mp h.1).2, fun d hd => h.2 d (by simp [hd])⟩

/-- In cells in canonical form, an index below every listed one is unlisted. -/
theorem Memory.read_below {m : Memory} {i : Nat} (h : ∀ c ∈ m, i < c.1) : m.read i = unlistedByte :=
  read_unlisted fun c hc => (h c hc).ne'

theorem Memory.read_consCell (i : Nat) (b : Byte) {m : Memory} (hm : m.read i = unlistedByte) (j : Nat) :
    (Memory.cons i b m).read j = if j = i then b else m.read j := by
  unfold Memory.cons
  by_cases hb : b = unlistedByte
  · by_cases hj : j = i <;> simp [hb, hj, hm]
  · by_cases hj : j = i
    · simp [hb, hj, read_cons]
    · simp [hb, hj, read_cons, Ne.symm hj]

/-- Every cell after a write is the written one or an old one. -/
theorem Memory.mem_write {m : Memory} {i : Nat} {b : Byte} {d : Host.Cell} (h : d ∈ m.write i b) :
    d = (i, b) ∨ d ∈ m := by
  induction m with
  | nil =>
    simp only [Memory.write, Memory.cons] at h
    split at h <;> simp_all
  | cons c m ih =>
    simp only [Memory.write, Memory.cons] at h
    split at h
    · split at h <;> simp_all
    · split at h
      · split at h
        · exact .inr (by simp [h])
        · rcases List.mem_cons.mp h with h | h
          · exact .inl h
          · exact .inr (by simp [h])
      · rcases List.mem_cons.mp h with h | h
        · exact .inr (by simp [h])
        · exact (ih h).imp id fun h => by simp [h]

/-- A write keeps the canonical form. -/
theorem Memory.wf_write {m : Memory} (h : m.wf) (i : Nat) (b : Byte) : (m.write i b).wf := by
  induction m with
  | nil =>
    simp only [Memory.write, Memory.cons]
    split <;> simp_all [Memory.wf]
  | cons c m ih =>
    have hc := (List.pairwise_cons.mp h.1).1
    have hz := h.2 c (by simp)
    simp only [Memory.write, Memory.cons]
    split
    · split
      · exact h
      · rename_i hi hb
        refine ⟨List.pairwise_cons.mpr ⟨fun d hd => ?_, h.1⟩, fun d hd => ?_⟩
        · rcases List.mem_cons.mp hd with rfl | hd
          · exact hi
          · exact hi.trans (hc d hd)
        · rcases List.mem_cons.mp hd with rfl | hd
          · exact hb
          · exact h.2 d hd
    · split
      · rename_i hi
        split
        · exact wf_tail h
        · rename_i hb
          refine ⟨List.pairwise_cons.mpr ⟨fun d hd => hi ▸ hc d hd, (wf_tail h).1⟩, fun d hd => ?_⟩
          rcases List.mem_cons.mp hd with rfl | hd
          · exact hb
          · exact (wf_tail h).2 d hd
      · refine ⟨List.pairwise_cons.mpr ⟨fun d hd => ?_, (ih (wf_tail h)).1⟩, fun d hd => ?_⟩
        · rcases mem_write hd with rfl | hd
          · simp only; omega
          · exact hc d hd
        · rcases List.mem_cons.mp hd with rfl | hd
          · exact hz
          · exact (ih (wf_tail h)).2 d hd

/-- What a read sees after a write. -/
theorem Memory.read_write {m : Memory} (h : m.wf) (i : Nat) (b : Byte) (j : Nat) :
    (m.write i b).read j = if j = i then b else m.read j := by
  induction m with
  | nil => exact read_consCell i b rfl j
  | cons c m ih =>
    have hc := (List.pairwise_cons.mp h.1).1
    unfold Memory.write
    split
    · rename_i hi
      refine read_consCell i b (read_below fun d hd => ?_) j
      rcases List.mem_cons.mp hd with rfl | hd
      · exact hi
      · exact hi.trans (hc d hd)
    · split
      · rename_i hi
        rw [read_consCell i b (read_below fun d hd => hi ▸ hc d hd) j, read_cons]
        by_cases hj : j = i
        · simp [hj]
        · simp [hj, show c.1 ≠ j by omega]
      · rw [read_cons, read_cons, ih (wf_tail h)]
        by_cases hj : c.1 = j
        · simp [hj, show j ≠ i by omega]
        · simp [hj]

/-- Two canonical lists of cells that read alike everywhere are equal. -/
theorem Memory.ext {m m' : Memory} (h : m.wf) (h' : m'.wf) (hr : ∀ i, m.read i = m'.read i) : m = m' := by
  induction m generalizing m' with
  | nil =>
    cases m' with
    | nil => rfl
    | cons c m' =>
      have := hr c.1
      simp only [read_nil, read_cons, if_true] at this
      exact absurd this.symm (h'.2 c (by simp))
  | cons c m ih =>
    have hc := (List.pairwise_cons.mp h.1).1
    cases m' with
    | nil =>
      have := hr c.1
      simp only [read_nil, read_cons, if_true] at this
      exact absurd this (h.2 c (by simp))
    | cons c' m' =>
      have hc' := (List.pairwise_cons.mp h'.1).1
      have hfst : c.1 = c'.1 := by
        rcases Nat.lt_trichotomy c.1 c'.1 with hlt | heq | hgt
        · have := hr c.1
          rw [read_cons, if_pos rfl, read_below (m := c' :: m') fun d hd => ?_] at this
          · exact absurd this (h.2 c (by simp))
          · rcases List.mem_cons.mp hd with rfl | hd
            · exact hlt
            · exact hlt.trans (hc' d hd)
        · exact heq
        · have := hr c'.1
          rw [read_cons c', if_pos rfl, read_below (m := c :: m) fun d hd => ?_] at this
          · exact absurd this.symm (h'.2 c' (by simp))
          · rcases List.mem_cons.mp hd with rfl | hd
            · exact hgt
            · exact hgt.trans (hc d hd)
      have hsnd : c.2 = c'.2 := by
        have := hr c.1
        rwa [read_cons, if_pos rfl, read_cons, if_pos hfst.symm] at this
      have htail : m = m' := by
        refine ih (wf_tail h) (wf_tail h') fun i => ?_
        by_cases hi : c.1 = i
        · rw [read_below fun d hd => hi ▸ hc d hd, read_below fun d hd => hi ▸ hfst ▸ hc' d hd]
        · have := hr i
          rwa [read_cons, if_neg hi, read_cons, if_neg (hfst ▸ hi)] at this
      rw [htail, Prod.ext hfst hsnd]

end Sys2Proof.Machine
end

