-- ==== Sys2Proof/Laws/Buffer.lean ====
section
/-! SUPPORT. One specification lemma for each primitive over the buffer (20_memory.md R41 to R48): the bits after SetBit
and MemWrite, the bits of MemRead's value, and the form of the cells that a write keeps. -/

namespace Sys2Proof.Machine

/-- The cells of `BUF` are in canonical form, and none lies at index `LEN` or above. -/
abbrev CellsOk (s : State) : Prop :=
  s.cells.wf ∧ ∀ c ∈ s.cells, c.1 < s.len

theorem replaceBit_getLsbD (v : Byte) {j : Nat} (hj : j < 8) (b : Bool) (i : Nat) :
    (replaceBit v j b).getLsbD i = if i = j then b else v.getLsbD i := by
  unfold replaceBit
  by_cases hi : i = j
  · subst hi
    cases b <;> simp [hj]
  · cases b
    · by_cases h8 : i < 8
      · simp [hi, h8]
      · simp [h8, hi, BitVec.getLsbD_of_ge v i (by omega)]
    · simp [BitVec.getLsbD_twoPow, hi, Ne.symm hi]

/-! ### SetBit -/

theorem setBit_wf {s : State} (h : s.cells.wf) (k : Nat) (b : Bool) : (setBit s k b).cells.wf :=
  Memory.wf_write h _ _

theorem setBit_read {s : State} (h : s.cells.wf) (k : Nat) (b : Bool) (i : Nat) :
    (setBit s k b).cells.read i =
      if i = k / 8 then replaceBit (s.cells.read (k / 8)) (7 - k % 8) b else s.cells.read i :=
  Memory.read_write h _ _ _

theorem setBit_cell_lt {s : State} {k : Nat} {b : Bool} {l : Nat} (h : ∀ c ∈ s.cells, c.1 < l) (hk : k / 8 < l) :
    ∀ c ∈ (setBit s k b).cells, c.1 < l := by
  intro c hc
  rcases Memory.mem_write hc with rfl | hc
  · exact hk
  · exact h c hc

/-- SetBit replaces one bit of the stream and no other (R44). -/
theorem streamBit_setBit {s : State} (h : s.cells.wf) (k : Nat) (b : Bool) (m : Nat) :
    streamBit (setBit s k b) m = if m = k then b else streamBit s m := by
  unfold streamBit
  rw [setBit_read h]
  by_cases hb : m / 8 = k / 8
  · rw [if_pos hb, replaceBit_getLsbD _ (by omega)]
    by_cases hm : m = k
    · simp [hm]
    · rw [if_neg (by omega), if_neg hm, hb]
  · rw [if_neg hb, if_neg (by rintro rfl; exact hb rfl)]

/-! ### The loop of MemWrite -/

/-- The first `i` rounds of the loop of MemWrite. -/
def storeRounds (s : State) (k n : Nat) (v : Word32) (i : Nat) : State :=
  (List.range i).foldl (fun u j => setBit u (k + j) (v.getLsbD (n - 1 - j))) s

theorem storeRounds_zero (s : State) (k n : Nat) (v : Word32) : storeRounds s k n v 0 = s := rfl

theorem storeRounds_succ (s : State) (k n : Nat) (v : Word32) (i : Nat) :
    storeRounds s k n v (i + 1) = setBit (storeRounds s k n v i) (k + i) (v.getLsbD (n - 1 - i)) := by
  simp [storeRounds, List.range_succ]

theorem storeBits_eq_rounds (s : State) (k n : Nat) (v : Word32) : storeBits s k n v = storeRounds s k n v n := rfl

/-- The loop of MemWrite writes nothing but the cells. -/
theorem storeRounds_fields (s : State) (k n : Nat) (v : Word32) (i : Nat) :
    storeRounds s k n v i = { s with cells := (storeRounds s k n v i).cells } := by
  induction i with
  | zero => rfl
  | succ i ih => rw [storeRounds_succ]; rw [ih]; rfl

theorem storeBits_fields (s : State) (k n : Nat) (v : Word32) :
    storeBits s k n v = { s with cells := (storeBits s k n v).cells } :=
  storeRounds_fields s k n v n

@[simp] theorem storeBits_cfg (s : State) (k n : Nat) (v : Word32) : (storeBits s k n v).cfg = s.cfg := by
  rw [storeBits_fields]
@[simp] theorem storeBits_len (s : State) (k n : Nat) (v : Word32) : (storeBits s k n v).len = s.len := by
  rw [storeBits_fields]
@[simp] theorem storeBits_cursor (s : State) (k n : Nat) (v : Word32) : (storeBits s k n v).cursor = s.cursor := by
  rw [storeBits_fields]
@[simp] theorem storeBits_acc (s : State) (k n : Nat) (v : Word32) : (storeBits s k n v).acc = s.acc := by
  rw [storeBits_fields]
@[simp] theorem storeBits_moves (s : State) (k n : Nat) (v : Word32) : (storeBits s k n v).moves = s.moves := by
  rw [storeBits_fields]
@[simp] theorem storeBits_responses (s : State) (k n : Nat) (v : Word32) :
    (storeBits s k n v).responses = s.responses := by
  rw [storeBits_fields]

theorem storeRounds_wf {s : State} (h : s.cells.wf) (k n : Nat) (v : Word32) (i : Nat) :
    (storeRounds s k n v i).cells.wf := by
  induction i with
  | zero => exact h
  | succ i ih => rw [storeRounds_succ]; exact setBit_wf ih _ _

theorem storeRounds_cell_lt {s : State} {l : Nat} (h : ∀ c ∈ s.cells, c.1 < l) (k n : Nat) (v : Word32) (i : Nat)
    (hk : ∀ j < i, (k + j) / 8 < l) : ∀ c ∈ (storeRounds s k n v i).cells, c.1 < l := by
  induction i with
  | zero => exact h
  | succ i ih =>
    rw [storeRounds_succ]
    exact setBit_cell_lt (ih fun j hj => hk j (by omega)) (hk i (by omega))

theorem streamBit_storeRounds {s : State} (h : s.cells.wf) (k n : Nat) (v : Word32) (i m : Nat) :
    streamBit (storeRounds s k n v i) m =
      if k ≤ m ∧ m < k + i then v.getLsbD (n - 1 - (m - k)) else streamBit s m := by
  induction i with
  | zero => rw [storeRounds_zero, if_neg (by omega)]
  | succ i ih =>
    rw [storeRounds_succ, streamBit_setBit (storeRounds_wf h k n v i), ih]
    by_cases hm : m = k + i
    · subst hm
      rw [if_pos rfl, if_pos (by omega), Nat.add_sub_cancel_left]
    · rw [if_neg hm]
      by_cases hin : k ≤ m ∧ m < k + i
      · rw [if_pos hin, if_pos (by omega)]
      · rw [if_neg hin, if_neg (by omega)]

theorem storeBits_wf {s : State} (h : s.cells.wf) (k n : Nat) (v : Word32) : (storeBits s k n v).cells.wf :=
  storeRounds_wf h k n v n

/-- The bits after the loop of MemWrite (R45): the `n` target bits are the value's, every other bit is as before. -/
theorem streamBit_storeBits {s : State} (h : s.cells.wf) (k n : Nat) (v : Word32) (m : Nat) :
    streamBit (storeBits s k n v) m =
      if k ≤ m ∧ m < k + n then v.getLsbD (n - 1 - (m - k)) else streamBit s m :=
  streamBit_storeRounds h k n v n m

/-- A stream bit of a byte that no cell lists is 0. -/
theorem streamBit_beyond {s : State} {l : Nat} (h : ∀ c ∈ s.cells, c.1 < l) {m : Nat} (hm : 8 * l ≤ m) :
    streamBit s m = false := by
  unfold streamBit
  rw [Memory.read_unlisted fun c hc => by have := h c hc; omega]
  simp [unlistedByte]

@[simp] theorem streamBit_grow (s : State) (l m : Nat) : streamBit (grow s l) m = streamBit s m := rfl

/-- A byte of the cells is the eight stream bits at its place (R41). -/
theorem read_getLsbD (s : State) (i j : Nat) (hj : j < 8) :
    (s.cells.read i).getLsbD j = streamBit s (8 * i + (7 - j)) := by
  unfold streamBit
  rw [show (8 * i + (7 - j)) / 8 = i by omega, show 7 - (8 * i + (7 - j)) % 8 = j by omega]

/-- Two buffers with the same stream bits hold the same bytes. -/
theorem read_eq_of_streamBit {s t : State} {i : Nat}
    (h : ∀ m, 8 * i ≤ m → m < 8 * i + 8 → streamBit s m = streamBit t m) : s.cells.read i = t.cells.read i := by
  apply BitVec.eq_of_getLsbD_eq
  intro j hj
  rw [read_getLsbD s i j hj, read_getLsbD t i j hj]
  exact h _ (by omega) (by omega)

/-- Two buffers in canonical form with the same stream bits have the same cells. -/
theorem cells_eq_of_streamBit {s t : State} (hs : s.cells.wf) (ht : t.cells.wf)
    (h : ∀ m, streamBit s m = streamBit t m) : s.cells = t.cells :=
  Memory.ext hs ht fun _ => read_eq_of_streamBit fun m _ _ => h m

/-! ### MemRead -/

theorem streamValue_zero (s : State) (k : Nat) : streamValue s k 0 = 0 := rfl

/-- One bit more: the value so far moves up by one place, and the new bit is the least significant (R43). -/
theorem streamValue_succ (s : State) (k n : Nat) :
    streamValue s k (n + 1) = 2 * streamValue s k n + (streamBit s (k + n)).toNat := by
  unfold streamValue
  rw [List.range_succ, List.map_append, List.sum_append]
  simp only [List.map_cons, List.map_nil, List.sum_cons, List.sum_nil, Nat.add_zero, Nat.add_sub_cancel,
    Nat.sub_self, pow_zero, Nat.mul_one]
  congr 1
  rw [← List.sum_map_mul_left]
  congr 1
  apply List.map_congr_left
  intro j hj
  have hj := List.mem_range.mp hj
  rw [show n - j = (n - 1 - j) + 1 by omega, pow_succ]
  ring

theorem streamValue_lt (s : State) (k n : Nat) : streamValue s k n < 2 ^ n := by
  induction n with
  | zero => simp [streamValue_zero]
  | succ n ih =>
    rw [streamValue_succ, pow_succ]
    have := Bool.toNat_le (streamBit s (k + n))
    omega

theorem streamValue_testBit (s : State) (k n i : Nat) :
    (streamValue s k n).testBit i = (decide (i < n) && streamBit s (k + (n - 1 - i))) := by
  induction n generalizing i with
  | zero => simp [streamValue_zero]
  | succ n ih =>
    rw [streamValue_succ]
    cases i with
    | zero => cases h : streamBit s (k + n) <;> simp [h, Nat.testBit_zero] 
    | succ i =>
      rw [Nat.testBit_succ]
      rw [show (2 * streamValue s k n + (streamBit s (k + n)).toNat) / 2 = streamValue s k n by
        have := Bool.toNat_le (streamBit s (k + n)); omega, ih]
      rw [show n + 1 - 1 - (i + 1) = n - 1 - i by omega]
      simp

/-- The value depends on the covered bits only (R92). -/
theorem streamValue_congr {s t : State} {k k' n : Nat} (h : ∀ j < n, streamBit s (k + j) = streamBit t (k' + j)) :
    streamValue s k n = streamValue t k' n := by
  induction n with
  | zero => rfl
  | succ n ih =>
    rw [streamValue_succ, streamValue_succ, ih fun j hj => h j (by omega), h n (by omega)]

/-- All that MemRead can do (R43). -/
theorem memRead_eq_some {s : State} {k n : Nat} {v : Word32} :
    memRead s k n = some v ↔ (1 ≤ n ∧ n ≤ 32 ∧ k + n ≤ 8 * s.len) ∧ v.toNat = streamValue s k n := by
  unfold memRead
  by_cases h : 1 ≤ n ∧ n ≤ 32 ∧ k + n ≤ 8 * s.len
  · have hlt : streamValue s k n < 2 ^ 32 :=
      (streamValue_lt s k n).trans_le (Nat.pow_le_pow_right (by omega) h.2.1)
    rw [if_pos h, Option.some.injEq, ← BitVec.toNat_inj, BitVec.toNat_ofNat, Nat.mod_eq_of_lt hlt]
    exact ⟨fun e => ⟨h, e.symm⟩, fun e => e.2.symm⟩
  · rw [if_neg h]
    simp [h]

/-- Bit `n-1-j` of MemRead's value is the stream's bit at `k + j` (R43, R92). -/
theorem memRead_getLsbD {s : State} {k n : Nat} {v : Word32} (h : memRead s k n = some v) (i : Nat) :
    v.getLsbD i = (decide (i < n) && streamBit s (k + (n - 1 - i))) := by
  rw [BitVec.getLsbD, (memRead_eq_some.mp h).2, streamValue_testBit]

/-- MemRead is defined on its whole domain (R43). -/
theorem memRead_defined {s : State} {k n : Nat} (h1 : 1 ≤ n) (h2 : n ≤ 32) (h3 : k + n ≤ 8 * s.len) :
    ∃ v, memRead s k n = some v := by
  unfold memRead
  exact ⟨_, if_pos ⟨h1, h2, h3⟩⟩

/-! ### MemWrite -/

/-- All that MemWrite can do (R45). -/
theorem memWrite_eq_some {s u : State} {k n : Nat} {v : Word32} :
    memWrite s k n v = some u ↔
      (1 ≤ n ∧ n ≤ 32 ∧ v.toNat < 2 ^ n ∧ k ≤ 8 * s.len ∧ ceil8 (k + n) ≤ s.cfg.cap) ∧
        u = storeBits (grow s (max s.len (ceil8 (k + n)))) k n v := by
  unfold memWrite
  split
  · rename_i h; simp [h, eq_comm]
  · rename_i h; simp [h]

theorem lowBits_toNat {n : Nat} (h : n ≤ 32) (arg : Word32) : (lowBits n arg).toNat = arg.toNat % 2 ^ n := by
  unfold lowBits mask
  rw [BitVec.toNat_and, BitVec.toNat_ofNat, Nat.mod_eq_of_lt (a := 2 ^ n - 1), Nat.and_two_pow_sub_one_eq_mod]
  have : 2 ^ n ≤ 2 ^ 32 := Nat.pow_le_pow_right (by omega) h
  have : 0 < 2 ^ n := Nat.two_pow_pos n
  omega

theorem lowBits_lt {n : Nat} (h : n ≤ 32) (arg : Word32) : (lowBits n arg).toNat < 2 ^ n := by
  rw [lowBits_toNat h]
  exact Nat.mod_lt _ (Nat.two_pow_pos n)

theorem lowBits_getLsbD {n : Nat} (h : n ≤ 32) (arg : Word32) (i : Nat) :
    (lowBits n arg).getLsbD i = (decide (i < n) && arg.getLsbD i) := by
  rw [BitVec.getLsbD, lowBits_toNat h, Nat.testBit_mod_two_pow]
  rfl

/-- MemWrite is defined on its whole domain, and its operand as WR masks it lies in it (R45, R93). -/
theorem memWrite_lowBits {s : State} {n : Nat} (value : Word32) (h1 : 1 ≤ n) (h2 : n ≤ 32) {k : Nat}
    (h3 : k ≤ 8 * s.len) (h4 : ceil8 (k + n) ≤ s.cfg.cap) :
    memWrite s k n (lowBits n value) =
      some (storeBits (grow s (max s.len (ceil8 (k + n)))) k n (lowBits n value)) :=
  memWrite_eq_some.mpr ⟨⟨h1, h2, lowBits_lt h2 value, h3, h4⟩, rfl⟩

/-- The bits after MemWrite (R45, R48). -/
theorem memWrite_streamBit {s u : State} {k n : Nat} {v : Word32} (h : memWrite s k n v = some u) (hs : s.cells.wf)
    (m : Nat) :
    streamBit u m = if k ≤ m ∧ m < k + n then v.getLsbD (n - 1 - (m - k)) else streamBit s m := by
  rw [(memWrite_eq_some.mp h).2, streamBit_storeBits (by exact hs)]
  rfl

theorem memWrite_len {s u : State} {k n : Nat} {v : Word32} (h : memWrite s k n v = some u) :
    u.len = max s.len (ceil8 (k + n)) := by
  rw [(memWrite_eq_some.mp h).2]; simp

/-- MemWrite keeps the form of the cells. -/
theorem memWrite_cellsOk {s u : State} {k n : Nat} {v : Word32} (h : memWrite s k n v = some u) (hs : CellsOk s) :
    CellsOk u := by
  obtain ⟨hd, rfl⟩ := memWrite_eq_some.mp h
  refine ⟨storeBits_wf (by exact hs.1) _ _ _, ?_⟩
  rw [storeBits_len, grow_len]
  have hl : ∀ c ∈ (grow s (max s.len (ceil8 (k + n)))).cells, c.1 < max s.len (ceil8 (k + n)) :=
    fun c hc => (hs.2 c hc).trans_le (le_max_left _ _)
  refine storeRounds_cell_lt hl _ _ _ _ fun j hj => ?_
  have : (k + j) / 8 < ceil8 (k + n) := by unfold ceil8; omega
  exact this.trans_le (le_max_right _ _)

/-- The reset state's cells, of every configuration, have the canonical form. -/
theorem resetWith_cellsOk (c : Config) : CellsOk (State.resetWith c) := by
  simp [CellsOk, State.resetWith, Memory.wf]

/-- So have those after a reset move. -/
theorem hostReset_cellsOk (s : State) : CellsOk (State.hostReset s) :=
  resetWith_cellsOk s.cfg

/-- Growth keeps the form of the cells. -/
theorem grow_cellsOk {s : State} {l : Nat} (h : CellsOk s) (hl : s.len ≤ l) : CellsOk (grow s l) :=
  ⟨h.1, fun c hc => (h.2 c hc).trans_le hl⟩

/-- MemWrite writes the cells and the length, and nothing else. -/
theorem memWrite_fields {s u : State} {k n : Nat} {v : Word32} (h : memWrite s k n v = some u) :
    u = { s with cells := u.cells, len := u.len } := by
  obtain ⟨_, rfl⟩ := memWrite_eq_some.mp h
  rw [storeBits_fields]
  rfl

/-- The loop of MemWrite reads and writes the cells alone: two states with the same cells come out with the same cells. -/
theorem storeBits_cells_congr {a b : State} (h : a.cells = b.cells) (k n : Nat) (v : Word32) :
    (storeBits a k n v).cells = (storeBits b k n v).cells := by
  simp only [storeBits]
  generalize List.range n = l
  induction l generalizing a b with
  | nil => exact h
  | cons j l ih => exact ih (by simp [h])

/-- MemRead reads the cells and the length alone. -/
theorem memRead_congr {a b : State} (h : a.cells = b.cells) (hl : a.len = b.len) (k n : Nat) :
    memRead a k n = memRead b k n := by
  unfold memRead
  rw [streamValue_congr (s := a) (t := b) fun j _ => by unfold streamBit; rw [h], hl]

end Sys2Proof.Machine
end

