-- ==== Sys2Proof/Laws/Decode.lean ====
section
/-! SUPPORT. The fields of a packed word, and when the decoder answers an instruction (30_encoding.md R62 to R68). -/

namespace Sys2Proof

@[simp] theorem cmdOp_packCmd (op md : BitVec 8) (arg : Word32) : cmdOp (packCmd op md arg) = op := by
  apply BitVec.eq_of_getLsbD_eq
  intro i hi
  simp only [cmdOp, packCmd, BitVec.getLsbD_extractLsb', BitVec.getLsbD_append]
  simp [hi, show ¬ 56 + i < 32 by omega, show ¬ 56 + i - 32 < 16 by omega, show ¬ 56 + i - 32 - 16 < 8 by omega]
  rw [show 56 + i - 32 - 16 - 8 = i by omega, BitVec.getLsbD_eq_getElem]

@[simp] theorem cmdMod_packCmd (op md : BitVec 8) (arg : Word32) : cmdMod (packCmd op md arg) = md := by
  apply BitVec.eq_of_getLsbD_eq
  intro i hi
  simp only [cmdMod, packCmd, BitVec.getLsbD_extractLsb', BitVec.getLsbD_append]
  simp [hi, show ¬ 48 + i < 32 by omega, show ¬ 48 + i - 32 < 16 by omega, show 48 + i - 32 - 16 < 8 by omega]
  congr 1
  omega

@[simp] theorem cmdRsv_packCmd (op md : BitVec 8) (arg : Word32) : cmdRsv (packCmd op md arg) = 0 := by
  apply BitVec.eq_of_getLsbD_eq
  intro i hi
  simp only [cmdRsv, packCmd, BitVec.getLsbD_extractLsb', BitVec.getLsbD_append]
  simp [hi, show ¬ 32 + i < 32 by omega]

@[simp] theorem cmdArg_packCmd (op md : BitVec 8) (arg : Word32) : cmdArg (packCmd op md arg) = arg := by
  apply BitVec.eq_of_getLsbD_eq
  intro i hi
  simp only [cmdArg, packCmd, BitVec.getLsbD_extractLsb', BitVec.getLsbD_append]
  simp [hi]

/-- A word is its four fields; with `RSV = 0` it is packed from the other three. -/
theorem packCmd_fields {w : CmdWord} (h : cmdRsv w = 0) : packCmd (cmdOp w) (cmdMod w) (cmdArg w) = w := by
  apply BitVec.eq_of_getLsbD_eq
  intro i hi
  have hr : ∀ j, j < 16 → w.getLsbD (32 + j) = false := by
    intro j hj
    have := congrArg (fun v => v.getLsbD j) h
    simpa [cmdRsv, BitVec.getLsbD_extractLsb', hj] using this
  simp only [packCmd, cmdOp, cmdMod, cmdArg, BitVec.getLsbD_append, BitVec.getLsbD_extractLsb']
  by_cases h1 : i < 32
  · simp [h1]
  · by_cases h2 : i - 32 < 16
    · have := hr (i - 32) h2
      rw [show 32 + (i - 32) = i by omega] at this
      simp [h1, h2, this]
    · by_cases h3 : i - 32 - 16 < 8
      · simp [h1, h2, h3, show 48 + (i - 32 - 16) = i by omega]
      · simp [h1, h2, h3, show i - 32 - 16 - 8 < 8 by omega, show 56 + (i - 32 - 16 - 8) = i by omega]

/-- The operation with a listed `OP` (R66). -/
theorem ofCode_code (o : Opcode) : Opcode.ofCode o.code = some o := by
  cases o <;> decide

theorem code_of_ofCode {op : BitVec 8} {o : Opcode} (h : Opcode.ofCode op = some o) : o.code = op := by
  simpa using List.find?_some h

/-- When the decoder answers an instruction: a listed `OP`, and every unused field zero (R65, R67). -/
theorem decode_eq_ok {w : CmdWord} {i : Instr} :
    decode w = .ok i ↔ ∃ o, Opcode.ofCode (cmdOp w) = some o ∧ cmdRsv w = 0 ∧
      cmdMod w &&& o.format.modMustBeZero = 0 ∧ (o.argMustBeZero = true → cmdArg w = 0) ∧
      i = o.instr (cmdMod w) (cmdArg w) := by
  unfold decode
  rcases h : Opcode.ofCode (cmdOp w) with _ | o
  · simp
  · simp only [Option.some.injEq, exists_eq_left']
    by_cases h1 : cmdRsv w = 0
    · by_cases h2 : cmdMod w &&& o.format.modMustBeZero = 0
      · by_cases h3 : o.argMustBeZero = true → cmdArg w = 0
        · have h3' : ¬ (o.argMustBeZero = true ∧ cmdArg w ≠ 0) := fun ⟨ha, hb⟩ => hb (h3 ha)
          rw [if_neg (by simp [h1]), if_neg (by simp [h2]), if_neg h3']
          simp only [Except.ok.injEq]
          exact ⟨fun e => ⟨h1, h2, h3, e.symm⟩, fun e => e.2.2.2.symm⟩
        · have h3' : o.argMustBeZero = true ∧ cmdArg w ≠ 0 := by
            simpa [Classical.not_imp] using h3
          rw [if_neg (by simp [h1]), if_neg (by simp [h2]), if_pos h3']
          exact ⟨fun e => (by cases e), fun e => absurd e.2.2.1 h3⟩
      · rw [if_neg (by simp [h1]), if_pos h2]
        exact ⟨fun e => (by cases e), fun e => absurd e.2.1 h2⟩
    · rw [if_pos h1]
      exact ⟨fun e => (by cases e), fun e => absurd e.1 h1⟩

end Sys2Proof
end

