-- ==== Sys2Proof/Laws/Tables.lean ====
section
/-! SUPPORT. What the lookups and the LRC word answer (41_trackalphabet.md R111, R113; 42_lrc.md R126), and the parity
function as an exclusive-or of bits. -/

namespace Sys2Proof.Machine

/-! ### Parity -/

/-- Parity is the exclusive-or of all the bits. -/
theorem parity_eq_foldr {w : Nat} (v : BitVec w) :
    parity v = (List.range w).foldr (fun i b => v.getLsbD i ^^ b) false := by
  unfold parity popcount
  generalize List.range w = l
  induction l with
  | nil => rfl
  | cons i l ih =>
    rw [List.countP_cons, List.foldr_cons, ← ih]
    rcases Nat.mod_two_eq_zero_or_one (List.countP v.getLsbD l) with h | h <;> cases v.getLsbD i <;>
      simp [Nat.add_mod, h]

/-- Parity of an exclusive-or. -/
theorem parity_xor {w : Nat} (a b : BitVec w) : parity (a ^^^ b) = (parity a ^^ parity b) := by
  rw [parity_eq_foldr, parity_eq_foldr a, parity_eq_foldr b]
  generalize List.range w = l
  induction l with
  | nil => rfl
  | cons i l ih =>
    rw [List.foldr_cons, List.foldr_cons, List.foldr_cons, ih, BitVec.getLsbD_xor]
    cases a.getLsbD i <;> cases b.getLsbD i <;> simp

@[simp] theorem parity_zero (w : Nat) : parity (0 : BitVec w) = false := by
  simp [parity, popcount]

/-! ### The lookups -/

/-- All that `enc` can answer (R111): the entry at the character's offset from the base, for a character in range. -/
theorem encChar_eq_some {c : Config} {t : TSel} {ch : Nat} {x : BitVec t.width} :
    encChar c t ch = some x ↔ ∃ i, ch = t.base + i ∧ ∃ h : i < t.count, (c.table t)[i] = x := by
  unfold encChar
  constructor
  · intro h
    split at h
    · rename_i hr
      exact ⟨ch - t.base, by omega, by omega, Option.some.inj h⟩
    · cases h
  · rintro ⟨i, rfl, hi, rfl⟩
    rw [dif_pos ⟨by omega, by omega⟩]
    simp

/-- `enc` has no answer exactly outside the table's range (R111, R166). -/
theorem encChar_eq_none {c : Config} {t : TSel} {ch : Nat} :
    encChar c t ch = none ↔ ch < t.base ∨ t.base + t.count ≤ ch := by
  unfold encChar
  split <;> simp <;> omega

/-- All that `dec` can answer (R113): the character of the first entry equal to the word, or `'~'` when none is. -/
theorem decWord_cases (c : Config) (t : TSel) (word : Nat) :
    (∃ i, ∃ h : i < t.count, (c.table t)[i].toNat = word ∧ (∀ j, ∀ hj : j < i, (c.table t)[j].toNat ≠ word) ∧
      decWord c t word = t.base + i) ∨
    ((∀ i, ∀ h : i < t.count, (c.table t)[i].toNat ≠ word) ∧ decWord c t word = noEntryChar) := by
  unfold decWord
  rcases h : (c.table t).toList.findIdx? (fun e => e.toNat == word) with _ | i
  · right
    have hx := h
    rw [List.findIdx?_eq_none_iff] at hx
    refine ⟨fun i hi => ?_, by rw [h]⟩
    have := hx (c.table t)[i] (by simp [Vector.mem_toList_iff])
    simpa using this
  · left
    have hx := h
    rw [List.findIdx?_eq_some_iff_getElem] at h
    obtain ⟨hi, he, hf⟩ := h
    have hi' : i < t.count := by simpa using hi
    exact ⟨i, hi', by simpa using he, fun j hj => by simpa using hf j hj, by rw [hx]⟩

/-! ### The LRC word -/

/-- Bit 0 of the LRC word is the parity of the other bits (R76, R126). -/
theorem lrcWord_bit_zero (t : TSel) (p : BitVec t.width) :
    (lrcWord t p).getLsbD 0 = parity (p.extractLsb' 1 (t.width - 1)) := by
  cases t with
  | seven =>
    show ((p.extractLsb' 1 6 ++ BitVec.ofBool _ : BitVec (6 + 1))).getLsbD 0 = _
    rw [BitVec.getLsbD_append]
    simp [TSel.width]
  | five =>
    show ((p.extractLsb' 1 4 ++ BitVec.ofBool _ : BitVec (4 + 1))).getLsbD 0 = _
    rw [BitVec.getLsbD_append]
    simp [TSel.width]

/-- The other bits of the LRC word are those of the exclusive-or (R76, R126). -/
theorem lrcWord_bit_succ (t : TSel) (p : BitVec t.width) (i : Nat) :
    (lrcWord t p).getLsbD (i + 1) = p.getLsbD (i + 1) := by
  cases t with
  | seven =>
    show ((p.extractLsb' 1 6 ++ BitVec.ofBool _ : BitVec (6 + 1))).getLsbD (i + 1) = _
    rw [BitVec.getLsbD_append]
    simp only [show ¬ i + 1 < 1 by omega, if_false, Nat.add_sub_cancel, BitVec.getLsbD_extractLsb']
    by_cases h : i < 6
    · simp [h, Nat.add_comm]
    · rw [BitVec.getLsbD_of_ge p (i + 1) (by simp only [TSel.width]; omega)]; simp [h]
  | five =>
    show ((p.extractLsb' 1 4 ++ BitVec.ofBool _ : BitVec (4 + 1))).getLsbD (i + 1) = _
    rw [BitVec.getLsbD_append]
    simp only [show ¬ i + 1 < 1 by omega, if_false, Nat.add_sub_cancel, BitVec.getLsbD_extractLsb']
    by_cases h : i < 4
    · simp [h, Nat.add_comm]
    · rw [BitVec.getLsbD_of_ge p (i + 1) (by simp only [TSel.width]; omega)]; simp [h]

/-- The LRC word of the running exclusive-or in `ACC` depends on `ACC[w-1:1]` only (R131 corner cases a, b). -/
theorem lrcWord_congr (t : TSel) {p q : BitVec t.width} (h : ∀ i, p.getLsbD (i + 1) = q.getLsbD (i + 1)) :
    lrcWord t p = lrcWord t q := by
  have hx : p.extractLsb' 1 (t.width - 1) = q.extractLsb' 1 (t.width - 1) := by
    apply BitVec.eq_of_getLsbD_eq
    intro i hi
    simp only [BitVec.getLsbD_extractLsb', Nat.add_comm 1 i, h]
  apply BitVec.eq_of_getLsbD_eq
  intro i _
  cases i with
  | zero => rw [lrcWord_bit_zero, lrcWord_bit_zero, hx]
  | succ i => rw [lrcWord_bit_succ, lrcWord_bit_succ, h]

theorem codewordXor_nil (c : Config) (t : TSel) : codewordXor c t [] = some 0 := rfl

/-- One character more in the exclusive-or of the codewords (R126). -/
theorem codewordXor_cons {c : Config} {t : TSel} {ch : Nat} {chars : List Nat} {p : BitVec t.width} :
    codewordXor c t (ch :: chars) = some p ↔
      ∃ x q, encChar c t ch = some x ∧ codewordXor c t chars = some q ∧ p = x ^^^ q := by
  rw [codewordXor]
  cases encChar c t ch <;> cases codewordXor c t chars <;> simp [eq_comm]

end Sys2Proof.Machine
end

