-- ==== Sys2Proof/Laws/Exec.lean ====
section
/-! SUPPORT. What each command can do when it answers a next state, and what one step can do: said once, cited afterwards. -/

namespace Sys2Proof.Machine

/-- RD as a case distinction on how much remains (R91). -/
theorem exec_rd (n : Nat) (s : State) :
    exec (.rd n) s =
      if 8 * s.len < s.cursor + n then .next (s.raise .eod)
      else ifDefined (memRead s s.cursor n) fun v => State.respondOk { s with cursor := s.cursor + n } v := by
  simp [exec, execRd, eodCondition]

/-- WR as a case distinction on the capacity (R93). -/
theorem exec_wr (n : Nat) (value : Word32) (s : State) :
    exec (.wr n value) s =
      if s.cfg.cap < ceil8 (s.cursor + n) then .next (s.raise .overflow)
      else ifDefined (memWrite s s.cursor n (lowBits n value)) fun u =>
        State.respondOk { u with cursor := s.cursor + n } 0 := by
  simp [exec, execWr, overflowCondition]

/-- RD (R91) when it answers: `EOD`, or the value read and the cursor moved. -/
theorem execRd_cases {n : Nat} {s t : State} (h : exec (.rd n) s = .next t) :
    (8 * s.len < s.cursor + n ∧ t = s.raise .eod) ∨
    (∃ v, memRead s s.cursor n = some v ∧ t = State.respondOk { s with cursor := s.cursor + n } v) := by
  rw [exec_rd] at h
  split at h
  · exact .inl ⟨by assumption, (Host.Outcome.next.inj h).symm⟩
  · exact .inr (ifDefined_eq_next.mp h)

/-- WR (R93) when it answers: `OVERFLOW`, or the bits written and the cursor moved. -/
theorem execWr_cases {n : Nat} {value : Word32} {s t : State} (h : exec (.wr n value) s = .next t) :
    (s.cfg.cap < ceil8 (s.cursor + n) ∧ t = s.raise .overflow) ∨
    (∃ u, memWrite s s.cursor n (lowBits n value) = some u ∧
      t = State.respondOk { u with cursor := s.cursor + n } 0) := by
  rw [exec_wr] at h
  split at h
  · exact .inl ⟨by assumption, (Host.Outcome.next.inj h).symm⟩
  · exact .inr (ifDefined_eq_next.mp h)

/-- ENC (R115): the codeword, or `INVALID_CHAR`; it always answers. -/
theorem execEnc_cases (t : TSel) (ch : Word32) (s : State) :
    (∃ c, encChar s.cfg t ch.toNat = some c ∧ exec (.enc t ch) s = .next (s.respondOk (c.setWidth 32))) ∨
    (encChar s.cfg t ch.toNat = none ∧ exec (.enc t ch) s = .next (s.raise .invalidChar)) := by
  simp only [exec, execEnc]
  cases encChar s.cfg t ch.toNat <;> simp

/-- LRCADD (R130): the codeword folded in, or `INVALID_CHAR`; it always answers. -/
theorem execLrcadd_cases (t : TSel) (ch : Word32) (s : State) :
    (∃ c, encChar s.cfg t ch.toNat = some c ∧
      exec (.lrcadd t ch) s = .next (State.respondOk { s with acc := s.acc ^^^ c.setWidth 7 } 0)) ∨
    (encChar s.cfg t ch.toNat = none ∧ exec (.lrcadd t ch) s = .next (s.raise .invalidChar)) := by
  simp only [exec, execLrcadd]
  cases encChar s.cfg t ch.toNat <;> simp

theorem exec_seek (arg : Word32) (s : State) :
    exec (.seek arg) s = .next (State.respondOk { s with cursor := seekTarget (seekDelta arg) s } 0) := rfl

theorem exec_pos (s : State) : exec .pos s = .next (s.respondOk (BitVec.ofNat 32 s.cursor)) := rfl

theorem exec_len (s : State) : exec .len s = .next (s.respondOk (BitVec.ofNat 32 s.len)) := rfl

theorem exec_clr (s : State) :
    exec .clr s = .next (State.respondOk { s with cells := [], len := 0, cursor := 0 } 0) := rfl

theorem exec_dec (t : TSel) (word : Word32) (s : State) :
    exec (.dec t word) s = .next (s.respondOk (BitVec.ofNat 32 (decWord s.cfg t word.toNat))) := rfl

theorem exec_lrcclr (s : State) : exec .lrcclr s = .next (State.respondOk { s with acc := 0 } 0) := rfl

theorem exec_lrcget (t : TSel) (s : State) :
    exec (.lrcget t) s = .next (s.respondOk ((lrcWord t (s.acc.setWidth t.width)).setWidth 32)) := rfl

/-- The signed operand is the two's complement reading of the 32 bits (R64). -/
theorem seekDelta_eq_toInt (arg : Word32) : seekDelta arg = arg.toInt := by
  unfold seekDelta BitVec.toInt
  split <;> split <;> omega

/-- A seek's target lies in the buffer (R95 corner case g). -/
theorem seekTarget_le (d : Int) (s : State) : seekTarget d s ≤ 8 * s.len := by
  unfold seekTarget
  omega

/-- All that one step can do: wait, execute or refuse the oldest command word, or reset. -/
theorem step_cases {s t : State} (h : step s = .next t) :
    (s.moves = [] ∧ t = s) ∨
    (∃ w rest i, s.moves = .command w :: rest ∧ decode w = .ok i ∧ exec i { s with moves := rest } = .next t) ∨
    (∃ w rest e, s.moves = .command w :: rest ∧ decode w = .error e ∧
      t = State.raise { s with moves := rest } .illegal) ∨
    (∃ a rest, s.moves = .reset a :: rest ∧ t = State.hostReset { s with moves := rest }) := by
  unfold step at h
  split at h
  · exact .inl ⟨by assumption, (Host.Outcome.next.inj h).symm⟩
  · rename_i w rest hm
    unfold runCommand at h
    split at h
    · exact .inr (.inl ⟨w, rest, _, hm, by assumption, h⟩)
    · exact .inr (.inr (.inl ⟨w, rest, _, hm, by assumption, (Host.Outcome.next.inj h).symm⟩))
  · exact .inr (.inr (.inr ⟨_, _, by assumption, (Host.Outcome.next.inj h).symm⟩))

end Sys2Proof.Machine
end

