-- ==== Sys2Proof/Laws/PerInstr.lean ====
section
/-! SUPPORT. The family `EncodeFields`: one lemma for each constructor of `Instr` on the fields of its command word
(30_encoding.md R62, R63, R65, R66). -/

namespace Sys2Proof.Laws.EncodeFields

/-- The word of an instruction has its operation's `OP`, `RSV = 0`, zeros where its format says `MOD` must be 0, and a
zero `ARG` where the operation takes none. -/
def Statement (i : Instr) : Prop :=
  cmdOp (encode i) = i.opcode.code ∧ cmdRsv (encode i) = 0 ∧
    cmdMod (encode i) &&& i.opcode.format.modMustBeZero = 0 ∧
    (i.opcode.argMustBeZero = true → cmdArg (encode i) = 0)

theorem widthMod_zero (n : Nat) : widthMod n &&& Format.n.modMustBeZero = 0 := by
  apply BitVec.eq_of_getLsbD_eq
  intro i hi
  have : i = 0 ∨ i = 1 ∨ i = 2 ∨ i = 3 ∨ i = 4 ∨ i = 5 ∨ i = 6 ∨ i = 7 := by omega
  rcases this with rfl | rfl | rfl | rfl | rfl | rfl | rfl | rfl <;>
    simp [widthMod, Format.modMustBeZero]

theorem tselMod_zero (t : TSel) : tselMod t &&& Format.t.modMustBeZero = 0 := by
  cases t <;> decide

theorem rd (n : Nat) : Statement (.rd n) := by
  simp [Statement, encode, Instr.opcode, Instr.modField, Instr.argField, Opcode.format, widthMod_zero]

theorem wr (n : Nat) (value : Word32) : Statement (.wr n value) := by
  simp [Statement, encode, Instr.opcode, Instr.modField, Opcode.format, Opcode.argMustBeZero, widthMod_zero]

theorem seek (arg : Word32) : Statement (.seek arg) := by
  simp [Statement, encode, Instr.opcode, Instr.modField, Opcode.argMustBeZero]

theorem pos : Statement .pos := by
  simp [Statement, encode, Instr.opcode, Instr.modField, Instr.argField]

theorem len : Statement .len := by
  simp [Statement, encode, Instr.opcode, Instr.modField, Instr.argField]

theorem clr : Statement .clr := by
  simp [Statement, encode, Instr.opcode, Instr.modField, Instr.argField]

theorem enc (t : TSel) (ch : Word32) : Statement (.enc t ch) := by
  simp [Statement, encode, Instr.opcode, Instr.modField, Opcode.format, Opcode.argMustBeZero, tselMod_zero]

theorem dec (t : TSel) (word : Word32) : Statement (.dec t word) := by
  simp [Statement, encode, Instr.opcode, Instr.modField, Opcode.format, Opcode.argMustBeZero, tselMod_zero]

theorem lrcclr : Statement .lrcclr := by
  simp [Statement, encode, Instr.opcode, Instr.modField, Instr.argField]

theorem lrcadd (t : TSel) (ch : Word32) : Statement (.lrcadd t ch) := by
  simp [Statement, encode, Instr.opcode, Instr.modField, Opcode.format, Opcode.argMustBeZero, tselMod_zero]

theorem lrcget (t : TSel) : Statement (.lrcget t) := by
  simp [Statement, encode, Instr.opcode, Instr.modField, Instr.argField, Opcode.format, tselMod_zero]

end Sys2Proof.Laws.EncodeFields
end

