-- ==== Sys2Proof/Laws/Pipeline.lean ====
section
/-! SUPPORT. How a host sequence goes on from one command: said once for `issue`, `issueOk` and `HostRun.bind`. -/

namespace Sys2Proof.Machine

@[simp] theorem HostRun.bind_done {α β : Type} (a : α) (s : State) (f : α → State → HostRun β) :
    (HostRun.done a s).bind f = f a s := rfl

@[simp] theorem HostRun.bind_stopped {α β : Type} (st : Status) (s : State) (f : α → State → HostRun β) :
    (HostRun.stopped st s : HostRun α).bind f = .stopped st s := rfl

@[simp] theorem HostRun.bind_broken {α β : Type} (f : α → State → HostRun β) :
    (HostRun.broken : HostRun α).bind f = .broken := rfl

/-- A command whose word decodes to it and which answers one response: the host has that response. -/
theorem issue_of_exec {i : Instr} {s t : State} {r : Response} (hd : decode (encode i) = .ok i)
    (he : exec i s = .next t) (hr : t.responses = s.responses ++ [r]) : issue i s = .done r t := by
  have hs : step { s with moves := .command (encode i) :: s.moves } = .next t := by
    simp only [step, runCommand, hd]
    exact he
  simp only [issue, hs, hr, List.getLast?_append, List.getLast?_singleton]
  rfl

/-- The same for a command that answers OK. -/
theorem issueOk_of_exec {i : Instr} {s t : State} {d : Word32} (hd : decode (encode i) = .ok i)
    (he : exec i s = .next t) (hr : t.responses = s.responses ++ [⟨.ok, d⟩]) : issueOk i s = .done d t := by
  simp [issueOk, issue_of_exec hd he hr]

/-- The same for a command that answers another status. -/
theorem issueOk_stopped {i : Instr} {s t : State} {st : Status} {d : Word32} (hd : decode (encode i) = .ok i)
    (he : exec i s = .next t) (hr : t.responses = s.responses ++ [⟨st, d⟩]) (hst : st ≠ .ok) :
    issueOk i s = .stopped st t := by
  simp [issueOk, issue_of_exec hd he hr, hst]

@[simp] theorem forEach_nil {α : Type} (f : α → State → HostRun Unit) (s : State) : forEach f [] s = .done () s := rfl

@[simp] theorem forEach_cons {α : Type} (f : α → State → HostRun Unit) (a : α) (as : List α) (s : State) :
    forEach f (a :: as) s = (f a s).bind fun _ t => forEach f as t := rfl

end Sys2Proof.Machine
end

