-- ==== Sys2Proof/Tests/Slice0.lean ====
section
/-! SUPPORT. Small tests. Expected values are those of the spec: 95_test_vectors.md (named by their ids), the worked
examples of the command rules, and words written out from the fields of 30_encoding.md R62 to R66. At the end, for every
statement with hypotheses, a state and operands that meet them. -/

namespace Sys2Proof.Tests

open Sys2Proof Sys2Proof.Machine

/-- A state with a buffer, given as bytes, and a cursor; the reference configuration, no move, no response. -/
def withBuf (bytes : List Byte) (cursor : Nat) : State :=
  { State.reset with
    cells := ((List.range bytes.length).zip bytes).filter fun c => c.2 != unlistedByte
    len := bytes.length
    cursor := cursor }

/-- What a step leaves that the vectors name: the buffer, the length, the cursor, the accumulator, the last response. -/
structure Shown where
  buf : List Byte
  len : Nat
  cursor : Nat
  acc : BitVec 7
  response : Option Response
  deriving DecidableEq, Repr

/-- What is shown of a step that goes on. -/
def shown (o : Host.Outcome State Fault Refusal) : Option Shown :=
  match o with
  | .next t => some ⟨t.bufBytes, t.len, t.cursor, t.acc, t.responses.getLast?⟩
  | .fault _ => none
  | .refused _ => none

/-- A state with the accumulator set. -/
def withAcc (acc : BitVec 7) : State :=
  { State.reset with acc := acc }

/-- A state with the host's moves set. -/
def withMoves (moves : List HostMove) (s : State) : State :=
  { s with moves := moves }

/-- A state under the capacity of two bytes. -/
def capTwo (s : State) : State :=
  { s with cfg := ⟨2, refIso7, refIso5⟩ }

/-! ### WellFormed -/

theorem test_rd_0_refused : (Instr.rd 0).wellFormed = false := by decide
theorem test_rd_33_refused : (Instr.rd 33).wellFormed = false := by decide
theorem test_wr_0_refused : (Instr.wr 0 1).wellFormed = false := by decide
theorem test_wr_33_refused : (Instr.wr 33 1).wellFormed = false := by decide
theorem test_widths_1_and_32_pass : (Instr.rd 1).wellFormed = true ∧ (Instr.wr 32 0).wellFormed = true := by decide

/-! ### Decode: one word for each constructor, field by field, OP MOD RSV ARG -/

theorem test_decode_rd : decode ((0x01 : BitVec 8) ++ (0b000_00110 : BitVec 8) ++ (0 : BitVec 16) ++ (0 : BitVec 32)) =
    .ok (.rd 7) := by decide
theorem test_decode_wr : decode ((0x02 : BitVec 8) ++ (0b000_11111 : BitVec 8) ++ (0 : BitVec 16) ++
    (0xDEADBEEF : BitVec 32)) = .ok (.wr 32 0xDEADBEEF) := by decide
theorem test_decode_seek : decode ((0x03 : BitVec 8) ++ (0 : BitVec 8) ++ (0 : BitVec 16) ++ (0xFFFFFFFD : BitVec 32)) =
    .ok (.seek 0xFFFFFFFD) := by decide
theorem test_decode_pos : decode 0x0400_0000_0000_0000 = .ok .pos := by decide
theorem test_decode_len : decode 0x0500_0000_0000_0000 = .ok .len := by decide
theorem test_decode_clr : decode 0x0600_0000_0000_0000 = .ok .clr := by decide
theorem test_decode_enc : decode ((0x10 : BitVec 8) ++ (0b0000000_1 : BitVec 8) ++ (0 : BitVec 16) ++ (0x3B : BitVec 32)) =
    .ok (.enc .five 0x3B) := by decide
theorem test_decode_dec : decode ((0x11 : BitVec 8) ++ (0b0000000_0 : BitVec 8) ++ (0 : BitVec 16) ++ (0x6D : BitVec 32)) =
    .ok (.dec .seven 0x6D) := by decide
theorem test_decode_lrcclr : decode 0x1200_0000_0000_0000 = .ok .lrcclr := by decide
theorem test_decode_lrcadd : decode 0x1301_0000_0000_0031 = .ok (.lrcadd .five 0x31) := by decide
theorem test_decode_lrcget : decode 0x1401_0000_0000_0000 = .ok (.lrcget .five) := by decide

/-- Program D, rows 1 to 8: each illegal for the reason its row names. -/
theorem test_decode_illegal :
    decode 0x0000_0000_0000_0000 = .error .unassignedOp ∧ decode 0x0700_0000_0000_0000 = .error .unassignedOp ∧
    decode 0x0107_0000_0000_0001 = .error .argNotZero ∧ decode 0x0220_0000_0000_0001 = .error .modNotZero ∧
    decode 0x0301_0000_0000_0000 = .error .modNotZero ∧ decode 0x0400_0001_0000_0000 = .error .reservedNotZero ∧
    decode 0x1002_0000_0000_0041 = .error .modNotZero ∧ decode 0x1400_0000_0000_0001 = .error .argNotZero := by decide

theorem test_decodeTableWord : decodeTableWord 64 0x0206_0000_0000_005B = some (.wr 7 0x5B) := by decide
theorem test_encode_seek : encode (.seek 0xFFFFFFD3) = 0x0300_0000_FFFF_FFD3 := by decide
theorem test_encode_wr : encode (.wr 5 0x1A) = 0x0204_0000_0000_001A := by decide

/-! ### The commands -/

/-- B4. -/
theorem test_rd_b4 : shown (exec (.rd 7) (withBuf [0xA5, 0xC3] 3)) =
    some ⟨[0xA5, 0xC3], 2, 10, 0, some ⟨.ok, 0x17⟩⟩ := by decide
/-- B7. -/
theorem test_rd_b7 : shown (exec (.rd 5) (withBuf [0xA5, 0xC3] 12)) =
    some ⟨[0xA5, 0xC3], 2, 12, 0, some ⟨.eod, 0⟩⟩ := by decide
/-- B16: five bytes touched; B17: zeros replace ones. -/
theorem test_wr_b16_b17 : shown (exec (.wr 32 0xDEADBEEF) (withBuf [0xB6, 0xC0] 10)) =
      some ⟨[0xB6, 0xF7, 0xAB, 0x6F, 0xBB, 0xC0], 6, 42, 0, some ⟨.ok, 0⟩⟩ ∧
    shown (exec (.wr 7 0) (withBuf [0xFF, 0xFF] 5)) =
      some ⟨[0xF8, 0x0F], 2, 12, 0, some ⟨.ok, 0⟩⟩ := by decide
/-- B25. -/
theorem test_seek_b25 : shown (exec (.seek 0xFFFFFF9C) (withBuf [0xD4, 0x00] 16)) =
    some ⟨[0xD4, 0x00], 2, 0, 0, some ⟨.ok, 0⟩⟩ := by decide
/-- B24. -/
theorem test_seek_b24 : shown (exec (.seek 0x64) (withBuf [0xD4, 0x00] 7)) =
    some ⟨[0xD4, 0x00], 2, 16, 0, some ⟨.ok, 0⟩⟩ := by decide
/-- B21. -/
theorem test_pos_b21 : shown (exec .pos (withBuf [0xD4, 0x00] 10)) =
    some ⟨[0xD4, 0x00], 2, 10, 0, some ⟨.ok, 0x0A⟩⟩ := by decide
/-- B22. -/
theorem test_len_b22 : shown (exec .len (withBuf [0xD4, 0x00] 10)) =
    some ⟨[0xD4, 0x00], 2, 10, 0, some ⟨.ok, 0x02⟩⟩ := by decide
/-- B29; `ACC` is not changed (R99). -/
theorem test_clr_b29 : shown (exec .clr { withBuf [0xD4, 0x00] 16 with acc := 0x15 }) =
    some ⟨[], 0, 0, 0x15, some ⟨.ok, 0⟩⟩ := by decide
/-- A3, and A4 under the alternative table. -/
theorem test_enc_a3_a4 : shown (exec (.enc .seven 0x3B) State.reset) = some ⟨[], 0, 0, 0, some ⟨.ok, 0x6D⟩⟩ ∧
    shown (exec (.enc .seven 0x3B) (State.resetWith Config.plain)) = some ⟨[], 0, 0, 0, some ⟨.ok, 0x37⟩⟩ := by decide
/-- A13: all 32 bits are compared. -/
theorem test_enc_a13 : shown (exec (.enc .seven 0x141) State.reset) =
    some ⟨[], 0, 0, 0, some ⟨.invalidChar, 0⟩⟩ := by decide
/-- A20, and A21 under the alternative table. -/
theorem test_dec_a20_a21 : shown (exec (.dec .five 0x1A) State.reset) = some ⟨[], 0, 0, 0, some ⟨.ok, 0x3B⟩⟩ ∧
    shown (exec (.dec .five 0x1A) (State.resetWith Config.plain)) = some ⟨[], 0, 0, 0, some ⟨.ok, 0x3D⟩⟩ := by decide
/-- A23 and A24: no entry. -/
theorem test_dec_a23_a24 : shown (exec (.dec .seven 0x6C) State.reset) = some ⟨[], 0, 0, 0, some ⟨.ok, 0x7E⟩⟩ ∧
    shown (exec (.dec .seven 0x80) State.reset) = some ⟨[], 0, 0, 0, some ⟨.ok, 0x7E⟩⟩ := by decide
/-- L12. -/
theorem test_lrcclr_l12 : shown (exec .lrcclr (withAcc 0b0010101)) =
    some ⟨[], 0, 0, 0, some ⟨.ok, 0⟩⟩ := by decide
/-- L3. -/
theorem test_lrcadd_l3 : shown (exec (.lrcadd .five 0x31) (withAcc 0b0011010)) =
    some ⟨[], 0, 0, 0b0001010, some ⟨.ok, 0⟩⟩ := by decide
/-- L4. -/
theorem test_lrcadd_l4 : shown (exec (.lrcadd .five 0x41) (withAcc 0b0001010)) =
    some ⟨[], 0, 0, 0b0001010, some ⟨.invalidChar, 0⟩⟩ := by decide
/-- L17 and L18 at width 7. -/
theorem test_lrcget_seven : shown (exec (.lrcget .seven) (withAcc 0b1111111)) =
      some ⟨[], 0, 0, 0b1111111, some ⟨.ok, 0x7E⟩⟩ ∧
    shown (exec (.lrcget .seven) (withAcc 0b0100010)) =
      some ⟨[], 0, 0, 0b0100010, some ⟨.ok, 0x22⟩⟩ := by decide
/-- L16 and L18 at width 5. -/
theorem test_lrcget_five : shown (exec (.lrcget .five) (withAcc 0b1000000)) =
      some ⟨[], 0, 0, 0b1000000, some ⟨.ok, 0x00⟩⟩ ∧
    shown (exec (.lrcget .five) (withAcc 0b0100010)) =
      some ⟨[], 0, 0, 0b0100010, some ⟨.ok, 0x03⟩⟩ := by decide

/-- B19 and B20: the capacity. -/
theorem test_wr_capacity : shown (exec (.wr 5 0x1F) (capTwo (withBuf [0xAB, 0xC0] 12))) =
      some ⟨[0xAB, 0xC0], 2, 12, 0, some ⟨.overflow, 0⟩⟩ ∧
    shown (exec (.wr 4 0xF) (capTwo (withBuf [0xAB, 0xC0] 12))) =
      some ⟨[0xAB, 0xCF], 2, 16, 0, some ⟨.ok, 0⟩⟩ := by decide

/-- `";HELLO WORLD?"`. -/
def hello : List Nat :=
  [0x3B, 0x48, 0x45, 0x4C, 0x4C, 0x4F, 0x20, 0x57, 0x4F, 0x52, 0x4C, 0x44, 0x3F]

/-- L25 and L26. -/
theorem test_lrc_hello : (lrc Config.reference .seven hello).map BitVec.toNat = some 0x11 ∧
    (lrc Config.plain .seven hello).map BitVec.toNat = some 0x09 := by decide

/-! ### The step -/

/-- Program D, row 1. -/
theorem test_step_illegal : shown (step (withMoves [.command 0] (withBuf [0xA5] 3))) =
    some ⟨[0xA5], 1, 3, 0, some ⟨.illegal, 0⟩⟩ := by decide
/-- A reset drops what the commands before it did, and the command it abandons (R186). -/
theorem test_step_reset :
    shown (step (withMoves [.reset (some 0x0600_0000_0000_0000)] { withBuf [0xFF] 3 with acc := 5 })) =
      some ⟨[], 0, 0, 0, none⟩ := by decide
/-- A table word runs as the first command after reset (B12). -/
theorem test_first_command : shown (step (State.reset.withFetchWord 64 0x0204_0000_0000_001A)) =
    some ⟨[0xD0], 1, 5, 0, some ⟨.ok, 0⟩⟩ := by decide
/-- The 40-bit response word of `INVALID_CHAR` (R69). -/
theorem test_response_word : (Response.mk .invalidChar 0).word = 0x02_0000_0000 := by decide

/-! ### The host sequences and the assembler -/

/-- P6: the track of no characters. -/
theorem test_empty_track : (match encodeTrack true .five [] State.reset with
    | .done _ t => some (t.bufBytes, t.cursor)
    | _ => none) = some ([0x00], 5) := by decide +kernel
/-- T7. -/
theorem test_trim_t7 : trim [0x7E, 0x7E, 0x3B, 0x31, 0x32, 0x3F, 0x7E, 0x3B, 0x39, 0x3F] [] =
    .valid [0x3B, 0x31, 0x32, 0x3F] := by decide
/-- T8. -/
theorem test_trim_t8 : trim [0x3F, 0x3B, 0x31, 0x32] [0x1F, 0x1A, 0x10, 0x08] = .corruptData := by decide
/-- T2. -/
theorem test_trim_t2 : trim [0x7E, 0x7E, 0x7E, 0x7E] [0, 0, 0, 0] = .noData := by decide
/-- Program A, rows 2 and 13, and A6. -/
theorem test_assemble : assemble "WR 7, 0x5B ; packed\nSEEK -45\n\nENC.5 ';'" =
    some [0x0206_0000_0000_005B, 0x0300_0000_FFFF_FFD3, 0x1001_0000_0000_003B] := by decide +kernel
/-- A width outside 1..32 and a suffix other than `.7` and `.5` are refused (R85). -/
theorem test_assemble_refuses : assemble "RD 33" = none ∧ assemble "RD 0" = none ∧ assemble "ENC.6 'A'" = none ∧
    assemble "SEEK 2147483648" = none := by decide +kernel

/-! ### Witnesses: for each statement with hypotheses, a state and operands that meet them together -/

theorem witness_DecodingTheEncoding : (Instr.wr 32 0xFFFFFFFF).WellFormed := by decide
theorem witness_EncodingTheDecoded : decode 0x0106_0000_0000_0000 = .ok (.rd 7) := by decide
theorem witness_RowLookup : ∃ r ∈ opcodeRows, (0x021F_0000_DEAD_BEEF : CmdWord) &&& r.mask = r.pattern := by decide
theorem witness_RowLookup_none : ∀ r ∈ opcodeRows, (0x0700_0000_0000_0000 : CmdWord) &&& r.mask ≠ r.pattern := by decide

/-- A command word, then a reset, on the port. -/
def posThenReset : State :=
  withMoves [.command 0x0400_0000_0000_0000, .reset none] (withBuf [0xA5] 3)

theorem witness_StepRunsTheDecodedCommand :
    posThenReset.moves = .command 0x0400_0000_0000_0000 :: [.reset none] ∧ decode 0x0400_0000_0000_0000 = .ok .pos :=
  ⟨rfl, by decide⟩
theorem witness_PresentedTableWordRunsNext : decodeTableWord 64 0x0500_0000_0000_0000 = some .len := by decide
theorem witness_UnmatchedWordIsAnsweredIllegal :
    (withMoves [.command 0x0700_0000_0000_0000] State.reset).moves = .command 0x0700_0000_0000_0000 :: [] ∧
      ∀ r ∈ opcodeRows, (0x0700_0000_0000_0000 : CmdWord) &&& r.mask ≠ r.pattern :=
  ⟨rfl, by decide⟩
theorem witness_BlockWaitsWithoutAMove : (withBuf [0xA5] 3).moves = [] := rfl
theorem witness_ResetMoveEmptiesTheBlock :
    (withMoves [.reset (some 0)] (withBuf [0xA5] 3)).moves = .reset (some 0) :: [] := rfl

theorem reference_wf : Config.reference.WF := by decide +kernel
theorem plain_wf : Config.plain.WF := by decide +kernel
theorem withBuf_inv : (withBuf [0xA5, 0xC3] 3).Inv := by decide
theorem withBuf_end_inv : (withBuf [0xA5, 0x00] 16).Inv := by decide

/-- `NoStepStops`, `EveryWordGetsOneResponse` and `EveryStepKeepsTheInvariants`: a step from a state with the invariants. -/
theorem witness_EveryStepKeepsTheInvariants : (State.reset.withFetchWord 64 0x0204_0000_0000_001A).Inv ∧
    (shown (step (State.reset.withFetchWord 64 0x0204_0000_0000_001A))).isSome := by decide

/-- RD at the end of the buffer, presented. -/
def readAtEnd : State :=
  withMoves [.command 0x0100_0000_0000_0000] (withBuf [0xA5] 8)

/-- The hypotheses of `FailedCommandChangesNothing` and of `EachStatusIsRaisedExactlyWhenItsConditionHolds`. -/
theorem witness_FailedCommandChangesNothing :
    readAtEnd.moves = .command 0x0100_0000_0000_0000 :: [] ∧
      step readAtEnd = .next (withBuf [0xA5] 8 |>.raise .eod) ∧
      (withBuf [0xA5] 8 |>.raise .eod).responses = readAtEnd.responses ++ [⟨.eod, 0⟩] ∧ Status.eod ≠ Status.ok :=
  ⟨rfl, rfl, rfl, by decide⟩
theorem witness_TrackCommandsDoNotSeeTheCodec :
    (Instr.lrcadd .five 0x3B).opcode ∈ [Opcode.enc, .dec, .lrcclr, .lrcadd, .lrcget] ∧
      (shown (exec (.lrcadd .five 0x3B) (withBuf [0xA5] 3))).isSome := by decide
theorem witness_CodecCommandsDoNotSeeTheLrcOrTheTables :
    (Instr.wr 5 0x1A).opcode ∈ [Opcode.rd, .wr, .seek, .pos, .len, .clr] ∧
      (shown (exec (.wr 5 0x1A) (withBuf [0xA5] 3))).isSome := by decide
theorem witness_LengthShrinksOnlyByClearOrReset :
    shown (step (withMoves [.command 0x0600_0000_0000_0000] (withBuf [0xA5] 3))) = some ⟨[], 0, 0, 0, some ⟨.ok, 0⟩⟩ ∧
      0 < (withBuf [0xA5] 3).len := by decide
theorem witness_CursorMovesOnlyAsItsCommandsSay : shown (exec (.rd 5) (withBuf [0xA5] 3)) =
    some ⟨[0xA5], 1, 8, 0, some ⟨.ok, 0x05⟩⟩ := by decide
theorem witness_AccumulatorIsWritten :
    shown (step (withMoves [.command 0x1200_0000_0000_0000] (withAcc 1))) = some ⟨[], 0, 0, 0, some ⟨.ok, 0⟩⟩ ∧
      (0 : BitVec 7) ≠ (withAcc 1).acc := by decide

/-- RD: exactly to the end of the buffer, and one bit more. -/
theorem witness_RdAnswersTheNextBits : 1 ≤ 13 ∧ 13 ≤ 32 ∧
    (withBuf [0xA5, 0xC3] 3).cursor + 13 ≤ 8 * (withBuf [0xA5, 0xC3] 3).len ∧
    1 ≤ 14 ∧ 14 ≤ 32 ∧ (withBuf [0xA5, 0xC3] 3).cursor + 14 > 8 * (withBuf [0xA5, 0xC3] 3).len := by decide
theorem witness_ReadsInPiecesConcatenate : 1 ≤ 5 ∧ 1 ≤ 8 ∧ 5 + 8 ≤ 32 ∧ 3 + 5 + 8 ≤ 8 * (withBuf [0xA5, 0xC3] 3).len := by
  decide
/-- WR: exactly to the capacity, and one bit more; a byte in front of the write. -/
theorem witness_WrReplacesTheBitsAtTheCursor :
    (capTwo (withBuf [0xAB, 0xC0] 12)).Inv ∧ ceil8 (12 + 4) ≤ (capTwo (withBuf [0xAB, 0xC0] 12)).cfg.cap ∧
      ceil8 (12 + 5) > (capTwo (withBuf [0xAB, 0xC0] 12)).cfg.cap ∧ 0 < 12 / 8 := by decide
theorem witness_WrIgnoresTheUpperBits :
    1 ≤ 5 ∧ 5 ≤ 32 ∧ (0xFFFFFFFA : Word32).toNat % 2 ^ 5 = (0x1A : Word32).toNat % 2 ^ 5 := by decide
/-- The three statements about MemWrite. -/
theorem witness_memWrite : (withBuf [0xFF] 6).Inv ∧ (memWrite (withBuf [0xFF] 6) 6 5 0x15).isSome := by decide
theorem witness_EqualBuffersAreEqualData : (withBuf [0xA5, 0x00] 16).Inv ∧ (withBuf [0xA5, 0x00] 3).Inv ∧
    (withBuf [0xA5, 0x00] 16).bufBytes = (withBuf [0xA5, 0x00] 3).bufBytes := by decide
/-- SEEK's extremes, POS and LEN. -/
theorem witness_invAndCap : (withBuf [0xA5, 0xC3] 3).Inv ∧ (withBuf [0xA5, 0xC3] 3).cfg.CapOk := by decide +kernel

/-- WR, SEEK back, RD of five bits, presented. -/
def writeSeekRead : State :=
  withMoves [.command (encode (.wr 5 0x15)), .command (encode (.seek (BitVec.ofInt 32 (-((5 : Nat) : Int))))),
    .command (encode (.rd 5))] (withBuf [0xFF] 6)

theorem witness_WriteSeekReadGivesTheValueBack :
    writeSeekRead.Inv ∧ ceil8 (writeSeekRead.cursor + 5) ≤ writeSeekRead.cfg.cap ∧
      writeSeekRead.moves = .command (encode (.wr 5 0x15)) ::
        .command (encode (.seek (BitVec.ofInt 32 (-((5 : Nat) : Int))))) :: .command (encode (.rd 5)) :: [] :=
  ⟨by decide, by decide, rfl⟩
theorem witness_ClearingEverythingIsReset :
    (withMoves [.command (encode .clr), .command (encode .lrcclr)] (withAcc 9)).moves =
      .command (encode .clr) :: .command (encode .lrcclr) :: [] := rfl

/-- Characters at the ends of both ranges and just outside them. -/
theorem witness_charRanges : (0x20 ≤ (0x20 : Word32).toNat ∧ (0x5F : Word32).toNat ≤ 0x5F) ∧
    ¬ (0x20 ≤ (0x1F : Word32).toNat) ∧ ¬ ((0x60 : Word32).toNat ≤ 0x5F) ∧
    (0x30 ≤ (0x30 : Word32).toNat ∧ (0x3F : Word32).toNat ≤ 0x3F) ∧
    ¬ (0x30 ≤ (0x2F : Word32).toNat) ∧ ¬ ((0x40 : Word32).toNat ≤ 0x3F) := by decide
/-- A word with an entry and a word with none, in a well-formed table. -/
theorem witness_DecAnswersTheCharacter : State.reset.cfg.TableWF .five ∧
    refIso5[11].toNat = (0x1A : Word32).toNat ∧ ∀ e ∈ refIso5.toList, e.toNat ≠ (0x1D : Word32).toNat := by decide +kernel
/-- The three statements about well-formed tables. -/
theorem witness_tables : Config.plain.TableWF .seven ∧ Config.plain.TableWF .five ∧
    (encChar Config.plain .seven 0x3B).map BitVec.toNat = some 0x37 := by decide +kernel
/-- `";1?"`, each character presented with LRCADD, then LRCGET, `ACC` being 0. -/
def lrcOfShort : State :=
  withMoves ((([0x3B, 0x31, 0x3F] : List Word32).map (Instr.lrcadd .five) ++ [Instr.lrcget .five]).map
    fun i => HostMove.command (encode i)) State.reset

theorem witness_LrcCommandsComputeTheLrc :
    lrc lrcOfShort.cfg .five (([0x3B, 0x31, 0x3F] : List Word32).map BitVec.toNat) = some (0x14 : BitVec 5) ∧
      lrcOfShort.acc = 0 ∧
      lrcOfShort.moves = (([0x3B, 0x31, 0x3F] : List Word32).map (Instr.lrcadd .five) ++ [Instr.lrcget .five]).map
        (fun i => HostMove.command (encode i)) ++ [] :=
  ⟨rfl, rfl, rfl⟩
/-- The same characters with LRCCLR in front, `ACC` not being 0. -/
def lrcOfShortCleared : State :=
  withMoves ((Instr.lrcclr :: ([0x3B, 0x31, 0x3F] : List Word32).map (Instr.lrcadd .five) ++ [Instr.lrcget .five]).map
    fun i => HostMove.command (encode i)) (withAcc 0x55)

/-- The clause with LRCCLR. -/
theorem witness_LrcCommandsComputeTheLrc_cleared :
    lrc lrcOfShortCleared.cfg .five (([0x3B, 0x31, 0x3F] : List Word32).map BitVec.toNat) = some (0x14 : BitVec 5) ∧
      lrcOfShortCleared.moves =
        ((Instr.lrcclr :: ([0x3B, 0x31, 0x3F] : List Word32).map (Instr.lrcadd .five)) ++ [Instr.lrcget .five]).map
          (fun i => HostMove.command (encode i)) ++ [] :=
  ⟨rfl, rfl⟩
/-- S3: an even and an odd length, every character with an entry; the hypotheses of `LrcWordIsEvenAndDecodesToNothing`
and `LrcColumnLaws`. -/
theorem witness_LrcColumnLaws :
    [0x3B, 0x31, 0x32, 0x3F].map (encChar Config.reference .five) =
      ([0x1A, 0x10, 0x08, 0x1F] : List (BitVec 5)).map some ∧
    lrc Config.reference .five [0x3B, 0x31, 0x32, 0x3F] = some (0x1D : BitVec 5) ∧
    lrc Config.reference .five [0x3B, 0x31, 0x3F] = some (0x14 : BitVec 5) ∧ Config.reference.TableWF .five :=
  ⟨rfl, rfl, rfl, by decide +kernel⟩

theorem witness_LoadingLeavesTheBytes :
    State.reset.cfg.CapOk ∧ ([0xD4, 0x11, 0xFE, 0x80] : List Byte).length ≤ State.reset.cfg.cap := by decide +kernel
theorem witness_UnloadingAnswersTheBytes : (withBuf [0xA5, 0x00] 16).Inv ∧ (withBuf [0xA5, 0x00] 16).cfg.CapOk := by
  decide +kernel
theorem witness_PutcAppendsTheCodeword : (withBuf [0xD4, 0x00] 10).Inv ∧
    encChar (withBuf [0xD4, 0x00] 10).cfg .five (0x32 : Word32).toNat = some (0x08 : BitVec 5) ∧
    ceil8 (10 + 5) ≤ (withBuf [0xD4, 0x00] 10).cfg.cap :=
  ⟨by decide, rfl, by decide⟩

/-- `";12?"`, the track of P1. -/
def shortTrack : List Word32 :=
  [0x3B, 0x31, 0x32, 0x3F]

theorem witness_EncodedTrackIsThePackedStream :
    shortTrack.map (fun ch => encChar State.reset.cfg .five ch.toNat) =
      ([0x1A, 0x10, 0x08, 0x1F] : List (BitVec 5)).map some ∧
    lrc State.reset.cfg .five (shortTrack.map BitVec.toNat) = some (0x1D : BitVec 5) ∧
    ceil8 (TSel.five.width * (shortTrack.length + 1)) ≤ State.reset.cfg.cap :=
  ⟨rfl, rfl, by decide⟩
/-- P7. -/
theorem witness_UnmappableCharacterStopsEncoding : (encChar State.reset.cfg .five (0x41 : Word32).toNat).isNone ∧
    (0x41 : Word32) ∈ ([0x3B, 0x31, 0x41, 0x3F] : List Word32) := by decide
theorem witness_DecodedTrackIsEveryWholeCodeword :
    State.reset.cfg.CapOk ∧ ([0xD4, 0x11, 0xFE, 0x80] : List Byte).length ≤ State.reset.cfg.cap := by decide +kernel
theorem witness_TrimTakesTheFirstSentinels :
    startSentinel ∉ [noEntryMark, endSentinel] ∧ endSentinel ∉ ([0x31, 0x32, startSentinel] : List Word32) := by decide
theorem witness_ZeroBuffer : State.reset.cfg.CapOk ∧ State.reset.cfg.TableWF .seven ∧ 3 ≤ State.reset.cfg.cap := by
  decide +kernel
/-- The end of T8: a `'?'` in front of the only `';'`, and non-zero words. -/
theorem witness_Unterminated :
    (¬ ∃ b e : Nat, b < e ∧ ([0x3F, 0x3B] : List Word32)[b]? = some startSentinel ∧
      ([0x3F, 0x3B] : List Word32)[e]? = some endSentinel) ∧
    ∃ v ∈ ([0x1F, 0x1A] : List Word32), v ≠ 0 := by
  refine ⟨?_, 0x1F, by simp, by decide⟩
  rintro ⟨b, e, h, h₁, h₂⟩
  match b, e with
  | 0, _ => simp [startSentinel] at h₁
  | 1, 0 => omega
  | 1, 1 => omega
  | 1, e + 2 => simp at h₂
  | b + 2, _ => simp at h₁
theorem witness_TrackRoundTrip_config : State.reset.cfg.CapOk ∧ State.reset.cfg.TableWF .five := by decide +kernel
theorem witness_TrackRoundTrip_chars :
    2 ≤ shortTrack.length ∧ (shortTrack.all fun ch => (encChar State.reset.cfg .five ch.toNat).isSome) ∧
      shortTrack.head? = some startSentinel ∧ shortTrack.getLast? = some endSentinel ∧
      endSentinel ∉ shortTrack.dropLast ∧
      ceil8 (TSel.five.width * (shortTrack.length + 1)) ≤ State.reset.cfg.cap :=
  ⟨by decide, by decide, by decide, by decide, by decide, by decide⟩
theorem witness_AssembledWords : assemble "POS" = some [0x0400_0000_0000_0000] := by decide +kernel

end Sys2Proof.Tests
end

section
/-! SUPPORT. The statements about the state (10_state.md): what a command can do to each piece of it, said once, then the
invariants, what each command leaves unchanged, the two halves of the block that do not see each other, and what a
well-formed table holds. -/

namespace Sys2Proof.Machine

/-! ### What one command can do to the state -/

/-- The next states of a command from `s` (R91 to R131): a response and nothing more, or one and the pieces of state that
the command's rule names. `exec_effect` ties it to `exec`. -/
inductive ExecEffect (s : State) : Instr → State → Prop
  /-- A command that writes no state, or a status other than OK (R170). -/
  | respond (i : Instr) (r : Response) : ExecEffect s i (s.respond r)
  | rd {n : Nat} {d : Word32} (hread : memRead s s.cursor n = some d) :
      ExecEffect s (.rd n) (State.respondOk { s with cursor := s.cursor + n } d)
  | wr {n : Nat} {value : Word32} {u : State} (hwrite : memWrite s s.cursor n (lowBits n value) = some u) :
      ExecEffect s (.wr n value) (State.respondOk { u with cursor := s.cursor + n } 0)
  | seek (arg : Word32) :
      ExecEffect s (.seek arg) (State.respondOk { s with cursor := seekTarget (seekDelta arg) s } 0)
  | clr : ExecEffect s .clr (State.respondOk { s with cells := [], len := 0, cursor := 0 } 0)
  | lrcclr : ExecEffect s .lrcclr (State.respondOk { s with acc := 0 } 0)
  | lrcadd {t : TSel} {ch : Word32} {x : BitVec t.width} (hentry : encChar s.cfg t ch.toNat = some x) :
      ExecEffect s (.lrcadd t ch) (State.respondOk { s with acc := s.acc ^^^ x.setWidth 7 } 0)

theorem ExecEffect.of_exec_eq {i : Instr} {s t u : State} (h : exec i s = .next t) (he : exec i s = .next u)
    (hu : ExecEffect s i u) : ExecEffect s i t :=
  Host.Outcome.next.inj (he.symm.trans h) ▸ hu

theorem exec_effect {i : Instr} {s t : State} (h : exec i s = .next t) : ExecEffect s i t := by
  cases i with
  | rd n =>
    obtain ⟨-, rfl⟩ | ⟨d, hread, rfl⟩ := execRd_cases h
    · exact .respond _ _
    · exact .rd hread
  | wr n value =>
    obtain ⟨-, rfl⟩ | ⟨u, hwrite, rfl⟩ := execWr_cases h
    · exact .respond _ _
    · exact .wr hwrite
  | seek arg => exact .of_exec_eq h (exec_seek arg s) (.seek arg)
  | pos => exact .of_exec_eq h (exec_pos s) (.respond _ _)
  | len => exact .of_exec_eq h (exec_len s) (.respond _ _)
  | clr => exact .of_exec_eq h (exec_clr s) .clr
  | enc t ch =>
    obtain ⟨x, -, he⟩ | ⟨-, he⟩ := execEnc_cases t ch s
    · exact .of_exec_eq h he (.respond _ _)
    · exact .of_exec_eq h he (.respond _ _)
  | dec t word => exact .of_exec_eq h (exec_dec t word s) (.respond _ _)
  | lrcclr => exact .of_exec_eq h (exec_lrcclr s) .lrcclr
  | lrcadd t ch =>
    obtain ⟨x, hentry, he⟩ | ⟨-, he⟩ := execLrcadd_cases t ch s
    · exact .of_exec_eq h he (.lrcadd hentry)
    · exact .of_exec_eq h he (.respond _ _)
  | lrcget t => exact .of_exec_eq h (exec_lrcget t s) (.respond _ _)

theorem memWrite_cfg {s u : State} {k n : Nat} {v : Word32} (h : memWrite s k n v = some u) : u.cfg = s.cfg := by
  rw [memWrite_fields h]

theorem memWrite_acc {s u : State} {k n : Nat} {v : Word32} (h : memWrite s k n v = some u) : u.acc = s.acc := by
  rw [memWrite_fields h]

/-! ### The invariants (R21, R24, R39) -/

theorem resetWith_inv (c : Config) : (State.resetWith c).Inv :=
  ⟨Nat.zero_le _, Nat.zero_le _, resetWith_cellsOk c⟩

theorem hostReset_inv (s : State) : s.hostReset.Inv :=
  resetWith_inv s.cfg

/-- The bits fit in the bytes that hold them (R10). -/
theorem le_ceil8 (k : Nat) : k ≤ 8 * ceil8 k := by
  unfold ceil8
  omega

/-- A MemWrite at the cursor grows the buffer to hold the bits that the cursor then moves past, within `CAP` (R45, R93). -/
theorem memWrite_inv {s u : State} {n : Nat} {v : Word32} (hs : s.Inv) (h : memWrite s s.cursor n v = some u) :
    State.Inv { u with cursor := s.cursor + n } := by
  obtain ⟨-, hcap, hcells⟩ := hs
  obtain ⟨-, -, -, -, hfit⟩ := (memWrite_eq_some.mp h).1
  have hlen := memWrite_len h
  have hcursor : s.cursor + n ≤ 8 * u.len := by
    have := le_ceil8 (s.cursor + n)
    omega
  have hu : u.len ≤ u.cfg.cap := by
    rw [hlen, memWrite_cfg h]
    exact max_le hcap hfit
  exact ⟨hcursor, hu, (memWrite_cellsOk h hcells :)⟩

theorem exec_inv {i : Instr} {s t : State} (hs : s.Inv) (h : exec i s = .next t) : t.Inv := by
  have ⟨_, hcap, hcells⟩ := hs
  cases exec_effect h with
  | respond => exact hs
  | rd hread =>
    obtain ⟨-, -, hremain⟩ := (memRead_eq_some.mp hread).1
    exact ⟨hremain, hcap, hcells⟩
  | wr hwrite => exact (memWrite_inv hs hwrite :)
  | seek arg => exact ⟨seekTarget_le _ s, hcap, hcells⟩
  | clr => exact resetWith_inv s.cfg
  | lrcclr => exact hs
  | lrcadd => exact hs

/-- Settles O14: a step waits, runs a command (`exec_inv`), refuses a word or resets (`hostReset_inv`). -/
theorem everyStepKeepsTheInvariants : Obligations.EveryStepKeepsTheInvariants := by
  intro s t hs h
  obtain ⟨-, rfl⟩ | ⟨w, rest, i, -, -, he⟩ | ⟨w, rest, e, -, -, rfl⟩ | ⟨a, rest, -, rfl⟩ := step_cases h
  · exact hs
  · exact exec_inv (s := { s with moves := rest }) hs he
  · exact hs
  · exact hostReset_inv _

/-- Settles O12: the fields of `State.resetWith`, and its invariants. -/
theorem resetStateIsTheEmptyCodec : Obligations.ResetStateIsTheEmptyCodec := by
  intro c
  obtain ⟨hcursor, hlen, -⟩ := resetWith_inv c
  exact ⟨rfl, rfl, rfl, rfl, rfl, hcursor, hlen⟩

/-- The reference capacity is legal (R8), and the entries of each reference table are distinct and odd (R31, R81, R82). -/
theorem reference_wf : Config.reference.WF :=
  ⟨by decide, by decide, by decide⟩

/-- Settles O13. -/
theorem invariantsHoldAfterReset : Obligations.InvariantsHoldAfterReset :=
  ⟨resetWith_inv, resetWith_inv Config.reference, reference_wf⟩

/-! ### What each command leaves unchanged -/

theorem exec_cfg {i : Instr} {s t : State} (h : exec i s = .next t) : t.cfg = s.cfg := by
  cases exec_effect h with
  | wr hwrite => exact (memWrite_cfg hwrite :)
  | respond | rd | seek | clr | lrcclr | lrcadd => rfl

/-- Settles O17: no command writes it (`exec_cfg`), and a reset keeps it. -/
theorem noStepWritesTheConfiguration : Obligations.NoStepWritesTheConfiguration := by
  intro s t h
  obtain ⟨-, rfl⟩ | ⟨w, rest, i, -, -, he⟩ | ⟨w, rest, e, -, -, rfl⟩ | ⟨a, rest, -, rfl⟩ := step_cases h
  · rfl
  · exact (exec_cfg he :)
  · rfl
  · rfl

/-- A command other than CLR keeps the length or, as WR, grows the buffer (R22). -/
theorem exec_len_le {i : Instr} {s t : State} (h : exec i s = .next t) (hi : i ≠ .clr) : s.len ≤ t.len := by
  cases exec_effect h with
  | wr hwrite => exact (le_max_left _ _).trans_eq (memWrite_len hwrite).symm
  | clr => exact absurd rfl hi
  | respond | rd | seek | lrcclr | lrcadd => exact le_rfl

/-- Settles O22. -/
theorem lengthShrinksOnlyByClearOrReset : Obligations.LengthShrinksOnlyByClearOrReset := by
  intro s t h hlt
  obtain ⟨-, rfl⟩ | ⟨w, rest, i, hmoves, hdecode, he⟩ | ⟨w, rest, e, -, -, rfl⟩ | ⟨a, rest, hmoves, -⟩ := step_cases h
  · exact absurd hlt (lt_irrefl _)
  · have hi : i = .clr := by_contra fun hne => absurd (exec_len_le he hne) (Nat.not_le.mpr hlt)
    exact .inl ⟨w, rest, hmoves, hi ▸ hdecode⟩
  · exact absurd hlt (lt_irrefl _)
  · exact .inr ⟨a, rest, hmoves⟩

/-- Settles O23. -/
theorem cursorMovesOnlyAsItsCommandsSay : Obligations.CursorMovesOnlyAsItsCommandsSay := by
  intro i s t h
  cases exec_effect h with
  | respond | lrcclr | lrcadd => exact .inl rfl
  | rd => exact .inr (.inl ⟨_, rfl, rfl⟩)
  | wr => exact .inr (.inr (.inl ⟨_, _, rfl, rfl⟩))
  | seek arg => exact .inr (.inr (.inr (.inl ⟨arg, rfl⟩)))
  | clr => exact .inr (.inr (.inr (.inr ⟨rfl, rfl⟩)))

/-- All that a command can do to `ACC` (R25, R129, R130). -/
theorem exec_acc_cases {i : Instr} {s t : State} (h : exec i s = .next t) :
    t.acc = s.acc ∨
    (∃ u ch x, i = .lrcadd u ch ∧ encChar s.cfg u ch.toNat = some x ∧ t.acc = s.acc ^^^ x.setWidth 7) ∨
    (i = .lrcclr ∧ t.acc = 0) := by
  cases exec_effect h with
  | wr hwrite => exact .inl (memWrite_acc hwrite :)
  | respond | rd | seek | clr => exact .inl rfl
  | lrcadd hentry => exact .inr (.inl ⟨_, _, _, rfl, hentry, rfl⟩)
  | lrcclr => exact .inr (.inr ⟨rfl, rfl⟩)

/-- Settles O24. -/
theorem accumulatorIsWrittenOnlyByLrcCommandsAndReset :
    Obligations.AccumulatorIsWrittenOnlyByLrcCommandsAndReset := by
  intro s t h hne
  obtain ⟨-, rfl⟩ | ⟨w, rest, i, hmoves, hdecode, he⟩ | ⟨w, rest, e, -, -, rfl⟩ | ⟨a, rest, hmoves, rfl⟩ :=
    step_cases h
  · exact absurd rfl hne
  · obtain hsame | ⟨u, ch, x, rfl, hentry, hacc⟩ | ⟨rfl, hacc⟩ := exec_acc_cases he
    · exact absurd hsame hne
    · exact .inl ⟨w, rest, u, ch, x, hmoves, hdecode, hentry, hacc⟩
    · exact .inr (.inl ⟨w, rest, hmoves, hdecode, hacc⟩)
  · exact absurd rfl hne
  · exact .inr (.inr ⟨a, rest, hmoves, rfl⟩)

/-! ### The two halves of the block do not see each other (R20, R90, R110, R125) -/

theorem exec_enc_of_entry {t : TSel} {ch : Word32} {s : State} {x : BitVec t.width}
    (h : encChar s.cfg t ch.toNat = some x) : exec (.enc t ch) s = .next (s.respondOk (x.setWidth 32)) := by
  simp [exec, execEnc, h]

theorem exec_enc_of_no_entry {t : TSel} {ch : Word32} {s : State} (h : encChar s.cfg t ch.toNat = none) :
    exec (.enc t ch) s = .next (s.raise .invalidChar) := by
  simp [exec, execEnc, h]

theorem exec_lrcadd_of_entry {t : TSel} {ch : Word32} {s : State} {x : BitVec t.width}
    (h : encChar s.cfg t ch.toNat = some x) :
    exec (.lrcadd t ch) s = .next (State.respondOk { s with acc := s.acc ^^^ x.setWidth 7 } 0) := by
  simp [exec, execLrcadd, h]

theorem exec_lrcadd_of_no_entry {t : TSel} {ch : Word32} {s : State} (h : encChar s.cfg t ch.toNat = none) :
    exec (.lrcadd t ch) s = .next (s.raise .invalidChar) := by
  simp [exec, execLrcadd, h]

/-- Settles O20: ENC and LRCADD depend on the table's entry, DEC, LRCCLR and LRCGET answer in every state, and neither
the entry nor what is written involves the codec. -/
theorem trackCommandsDoNotSeeTheCodec : Obligations.TrackCommandsDoNotSeeTheCodec := by
  intro i s t cells len cursor hi h
  cases i with
  | rd | wr | seek | pos | len | clr => simp [Instr.opcode] at hi
  | enc u ch =>
    obtain ⟨x, hx, he⟩ | ⟨hx, he⟩ := execEnc_cases u ch s <;> obtain rfl := Host.Outcome.next.inj (he.symm.trans h)
    · exact exec_enc_of_entry hx
    · exact exec_enc_of_no_entry hx
  | lrcadd u ch =>
    obtain ⟨x, hx, he⟩ | ⟨hx, he⟩ := execLrcadd_cases u ch s <;> obtain rfl := Host.Outcome.next.inj (he.symm.trans h)
    · exact exec_lrcadd_of_entry hx
    · exact exec_lrcadd_of_no_entry hx
  | dec | lrcclr | lrcget =>
    obtain rfl := Host.Outcome.next.inj h
    rfl

/-- The state with another accumulator and other tables, under the same capacity. -/
def State.withTrack (s : State) (acc : BitVec 7) (table7 : Vector (BitVec 7) 64) (table5 : Vector (BitVec 5) 16) :
    State :=
  { s with acc := acc, cfg := ⟨s.cfg.cap, table7, table5⟩ }

section WithTrack

variable {s : State} (acc : BitVec 7) (table7 : Vector (BitVec 7) 64) (table5 : Vector (BitVec 5) 16)

theorem memRead_withTrack (k n : Nat) : memRead (s.withTrack acc table7 table5) k n = memRead s k n :=
  memRead_congr rfl rfl k n

theorem storeBits_withTrack (k n : Nat) (v : Word32) :
    storeBits (s.withTrack acc table7 table5) k n v = (storeBits s k n v).withTrack acc table7 table5 := by
  have hcells : (storeBits (s.withTrack acc table7 table5) k n v).cells = (storeBits s k n v).cells :=
    storeBits_cells_congr (a := s.withTrack acc table7 table5) (b := s) rfl k n v
  rw [storeBits_fields (s.withTrack acc table7 table5), hcells, storeBits_fields s]
  rfl

theorem memWrite_withTrack {u : State} {k n : Nat} {v : Word32} (h : memWrite s k n v = some u) :
    memWrite (s.withTrack acc table7 table5) k n v = some (u.withTrack acc table7 table5) := by
  obtain ⟨hdomain, rfl⟩ := memWrite_eq_some.mp h
  exact memWrite_eq_some.mpr ⟨hdomain, (storeBits_withTrack acc table7 table5 k n v).symm⟩

end WithTrack

theorem exec_rd_of_eod {n : Nat} {s : State} (h : 8 * s.len < s.cursor + n) :
    exec (.rd n) s = .next (s.raise .eod) := by
  rw [exec_rd, if_pos h]

theorem exec_rd_of_memRead {n : Nat} {s : State} {d : Word32} (h : memRead s s.cursor n = some d) :
    exec (.rd n) s = .next (State.respondOk { s with cursor := s.cursor + n } d) := by
  obtain ⟨-, -, hremain⟩ := (memRead_eq_some.mp h).1
  rw [exec_rd, if_neg (Nat.not_lt.mpr hremain), h, ifDefined_some]

theorem exec_wr_of_overflow {n : Nat} {value : Word32} {s : State} (h : s.cfg.cap < ceil8 (s.cursor + n)) :
    exec (.wr n value) s = .next (s.raise .overflow) := by
  rw [exec_wr, if_pos h]

theorem exec_wr_of_memWrite {n : Nat} {value : Word32} {s u : State}
    (h : memWrite s s.cursor n (lowBits n value) = some u) :
    exec (.wr n value) s = .next (State.respondOk { u with cursor := s.cursor + n } 0) := by
  obtain ⟨-, -, -, -, hfit⟩ := (memWrite_eq_some.mp h).1
  rw [exec_wr, if_neg (Nat.not_lt.mpr hfit), h, ifDefined_some]

/-- Settles O21: RD and WR depend on their condition and on MemRead or MemWrite, which read the cells, the length and the
capacity alone; the other four answer in every state. -/
theorem codecCommandsDoNotSeeTheLrcOrTheTables : Obligations.CodecCommandsDoNotSeeTheLrcOrTheTables := by
  intro i s t acc table7 table5 hi h
  show exec i (s.withTrack acc table7 table5) =
    .next { t with acc := acc, cfg := ⟨s.cfg.cap, table7, table5⟩ }
  rw [← exec_cfg h]
  cases i with
  | enc | dec | lrcclr | lrcadd | lrcget => simp [Instr.opcode] at hi
  | rd n =>
    obtain ⟨heod, rfl⟩ | ⟨d, hread, rfl⟩ := execRd_cases h
    · exact exec_rd_of_eod (s := s.withTrack acc table7 table5) heod
    · exact exec_rd_of_memRead ((memRead_withTrack acc table7 table5 _ n).trans hread)
  | wr n value =>
    obtain ⟨hover, rfl⟩ | ⟨u, hwrite, rfl⟩ := execWr_cases h
    · exact exec_wr_of_overflow (s := s.withTrack acc table7 table5) hover
    · exact exec_wr_of_memWrite (s := s.withTrack acc table7 table5)
        (memWrite_withTrack acc table7 table5 hwrite)
  | seek | pos | len | clr =>
    obtain rfl := Host.Outcome.next.inj h
    rfl

/-! ### The cells are the buffer (R21; log entry 6) -/

/-- An index at which the buffer has no byte is unlisted. -/
theorem read_beyond_len {s : State} (h : CellsOk s) {i : Nat} (hi : s.len ≤ i) : s.cells.read i = unlistedByte :=
  Memory.read_unlisted fun c hc => by have := h.2 c hc; omega

theorem bufBytes_length (s : State) : s.bufBytes.length = s.len := by
  simp [State.bufBytes]

theorem bufBytes_getElem? {s : State} {i : Nat} (hi : i < s.len) : s.bufBytes[i]? = some (s.cells.read i) := by
  simp [State.bufBytes, hi]

/-- Settles O32: below the common length the bytes are the buffer's, above it both read as unlisted. -/
theorem equalBuffersAreEqualData : Obligations.EqualBuffersAreEqualData := by
  rintro s t ⟨-, -, hs⟩ ⟨-, -, ht⟩ hbuf
  have hlen : s.len = t.len := by
    rw [← bufBytes_length s, hbuf, bufBytes_length]
  refine ⟨Memory.ext hs.1 ht.1 fun i => ?_, hlen⟩
  rcases Nat.lt_or_ge i s.len with hi | hi
  · have hget : some (s.cells.read i) = some (t.cells.read i) := by
      rw [← bufBytes_getElem? hi, hbuf, bufBytes_getElem? (hlen ▸ hi)]
    exact Option.some.inj hget
  · rw [read_beyond_len hs hi, read_beyond_len ht (hlen ▸ hi)]

/-! ### The entries of a well-formed table (R31, R32) -/

/-- The words of odd popcount. -/
def oddWords (w : Nat) : Finset (BitVec w) :=
  Finset.univ.filter fun v => parity v = true

theorem mem_oddWords {w : Nat} {v : BitVec w} : v ∈ oddWords w ↔ parity v = true := by
  simp [oddWords]

theorem parity_one {w : Nat} (hw : 0 < w) : parity 1#w = true := by
  have hcount : popcount 1#w = (List.range w).count 0 :=
    List.countP_congr fun i _ => by simp [BitVec.getLsbD_one, hw, eq_comm (a := i)]
  rw [parity, hcount, List.count_eq_one_of_mem List.nodup_range (List.mem_range.mpr hw)]
  rfl

/-- Flipping bit 0 exchanges the odd words and the even ones. -/
theorem parity_xor_one {w : Nat} (hw : 0 < w) (v : BitVec w) : parity (v ^^^ 1#w) = !parity v := by
  rw [parity_xor, parity_one hw, Bool.xor_true]

theorem card_oddWords {w : Nat} (hw : 0 < w) : 2 * (oddWords w).card = 2 ^ w := by
  have hhalf : (oddWords w).card = (Finset.univ.filter fun v : BitVec w => ¬ parity v = true).card := by
    refine Finset.card_nbij' (· ^^^ 1#w) (· ^^^ 1#w) (fun v hv => ?_) (fun v hv => ?_) (fun v _ => ?_) fun v _ => ?_
    · simpa [oddWords, parity_xor_one hw] using hv
    · simpa [oddWords, parity_xor_one hw] using hv
    · simp
    · simp
  calc 2 * (oddWords w).card
      = (oddWords w).card + (Finset.univ.filter fun v : BitVec w => ¬ parity v = true).card := by
        rw [← hhalf, two_mul]
    _ = (Finset.univ : Finset (BitVec w)).card := Finset.card_filter_add_card_filter_not _
    _ = 2 ^ w := by rw [Finset.card_univ, ← FinEnum.card_eq_fintypeCard, FinEnum.card_bitVec]

/-- A table has as many entries as its width has odd words (R16). -/
theorem card_oddWords_width (t : TSel) : (oddWords t.width).card = t.count := by
  have hwidth : 0 < t.width ∧ 2 ^ t.width = 2 * t.count := by cases t <;> decide
  have hcard := card_oddWords hwidth.1
  omega

/-- WF1 and WF2 give `count(t)` distinct odd words, which are all there are (R32). -/
theorem toFinset_eq_oddWords {c : Config} {t : TSel} (h : c.TableWF t) :
    (c.table t).toList.toFinset = oddWords t.width := by
  obtain ⟨hdistinct, hodd⟩ := h
  refine Finset.eq_of_subset_of_card_le (fun v hv => ?_) ?_
  · exact mem_oddWords.mpr (hodd v (List.mem_toFinset.mp hv))
  · rw [List.toFinset_card_of_nodup hdistinct, card_oddWords_width, Vector.length_toList]

/-- Settles O41. -/
theorem wellFormedTableHoldsTheOddWords : Obligations.WellFormedTableHoldsTheOddWords := by
  intro c u h v
  rw [← List.mem_toFinset, toFinset_eq_oddWords h, mem_oddWords]

end Sys2Proof.Machine
end

section
/-! SUPPORT. The statements about the buffer's primitives (20_memory.md): what MemRead and MemWrite say about each other,
derived from the stream bits that each reads or leaves. -/

namespace Sys2Proof.Machine

/-! ### Reading in pieces (R42) -/

/-- The first `a` bits are the most significant: the `b` bits after them move them up by `b` places (R42, R43). -/
theorem streamValue_add (s : State) (k a b : Nat) :
    streamValue s k (a + b) = streamValue s k a * 2 ^ b + streamValue s (k + a) b := by
  induction b with
  | zero => simp [streamValue_zero]
  | succ b ih =>
    calc streamValue s k (a + b + 1)
        = 2 * (streamValue s k a * 2 ^ b + streamValue s (k + a) b) + (streamBit s (k + a + b)).toNat := by
          rw [streamValue_succ, ih, Nat.add_assoc k]
      _ = streamValue s k a * 2 ^ (b + 1) + streamValue s (k + a) (b + 1) := by
          rw [streamValue_succ, pow_succ]
          ring

/-- Settles O26: each of the three reads is defined (`memRead_defined`) and answers its `streamValue`. -/
theorem readsInPiecesConcatenate : Obligations.ReadsInPiecesConcatenate := by
  intro s k a b ha hb hwidth hremain
  obtain ⟨x, hx⟩ : ∃ x, memRead s k a = some x := memRead_defined ha (by omega) (by omega)
  obtain ⟨y, hy⟩ : ∃ y, memRead s (k + a) b = some y := memRead_defined hb (by omega) hremain
  obtain ⟨z, hz⟩ : ∃ z, memRead s k (a + b) = some z := memRead_defined (by omega) hwidth (by omega)
  refine ⟨x, y, z, hx, hy, hz, ?_⟩
  obtain ⟨-, hxv⟩ := memRead_eq_some.mp hx
  obtain ⟨-, hyv⟩ := memRead_eq_some.mp hy
  obtain ⟨-, hzv⟩ := memRead_eq_some.mp hz
  rw [hxv, hyv, hzv, streamValue_add]

/-! ### Reading back what was written (R47) -/

/-- After MemWrite the buffer holds every target bit (R45). -/
theorem memWrite_target_le {s u : State} {k n : Nat} {v : Word32} (h : memWrite s k n v = some u) :
    k + n ≤ 8 * u.len := by
  have hbytes := le_ceil8 (k + n)
  have hlen := memWrite_len h
  omega

/-- The target bits, read as a number, are the operand: bit `i` of it went to stream bit `k + (n - 1 - i)`, and it has no
bit at `n` or above (R43, R45). -/
theorem memWrite_streamValue {s u : State} {k n : Nat} {v : Word32} (hs : s.cells.wf) (h : memWrite s k n v = some u) :
    streamValue u k n = v.toNat := by
  obtain ⟨⟨-, -, hv, -, -⟩, -⟩ := memWrite_eq_some.mp h
  refine Nat.eq_of_testBit_eq fun i => ?_
  rw [streamValue_testBit, memWrite_streamBit h hs]
  rcases Nat.lt_or_ge i n with hi | hi
  · rw [if_pos (by omega), show n - 1 - (k + (n - 1 - i) - k) = i by omega, decide_eq_true hi, Bool.true_and,
      BitVec.getLsbD]
  · rw [decide_eq_false (by omega), Bool.false_and,
      Nat.testBit_lt_two_pow (hv.trans_le (Nat.pow_le_pow_right (by omega) hi))]

/-- Settles O29: the read lies inside the grown buffer, and its value is `memWrite_streamValue`. -/
theorem memReadAfterMemWriteGivesTheValue : Obligations.MemReadAfterMemWriteGivesTheValue := by
  intro s u k n v hs h
  obtain ⟨⟨hn, hn32, -⟩, -⟩ := memWrite_eq_some.mp h
  exact memRead_eq_some.mpr ⟨⟨hn, hn32, memWrite_target_le h⟩, (memWrite_streamValue hs h).symm⟩

/-! ### What a write leaves unchanged (R48) -/

/-- MemWrite keeps every bit that is not one of its targets (R48). -/
theorem memWrite_streamBit_of_not_target {s u : State} {k n m : Nat} {v : Word32} (hs : s.cells.wf)
    (h : memWrite s k n v = some u) (hm : m < k ∨ k + n ≤ m) : streamBit u m = streamBit s m := by
  rw [memWrite_streamBit h hs, if_neg (by omega)]

/-- Settles O30: no offset of either clause is a target, and those of the second read 0 before the write, being beyond
the old end (`streamBit_beyond`). -/
theorem memWriteIsLocal : Obligations.MemWriteIsLocal := by
  rintro s u k n v ⟨-, -, hwf, hcells⟩ h
  constructor
  · intro m hm
    exact memWrite_streamBit_of_not_target hwf h (hm.imp_right And.left)
  · intro m hm _
    obtain ⟨htarget, hend⟩ := max_le_iff.mp hm
    rw [memWrite_streamBit_of_not_target hwf h (.inr htarget), streamBit_beyond hcells hend]

/-! ### Writing twice (R51) -/

/-- A MemWrite that was done can be done again: its place is still in the buffer, and its capacity is the same (R45). -/
theorem memWrite_again_defined {s u : State} {k n : Nat} {v : Word32} (h : memWrite s k n v = some u) :
    ∃ t, memWrite u k n v = some t := by
  obtain ⟨⟨hn, hn32, hv, -, hfit⟩, -⟩ := memWrite_eq_some.mp h
  have hplace : k ≤ 8 * u.len := (Nat.le_add_right k n).trans (memWrite_target_le h)
  exact ⟨_, memWrite_eq_some.mpr ⟨⟨hn, hn32, hv, hplace, by rwa [memWrite_cfg h]⟩, rfl⟩⟩

/-- The second write leaves every bit as the first did (R51). -/
theorem memWrite_twice_streamBit {s u t : State} {k n : Nat} {v : Word32} (hs : s.cells.wf) (hu : u.cells.wf)
    (h : memWrite s k n v = some u) (h' : memWrite u k n v = some t) (m : Nat) : streamBit t m = streamBit u m := by
  rw [memWrite_streamBit h' hu, memWrite_streamBit h hs]
  split
  · rfl
  · rfl

/-- The first write has grown the buffer as far as the second needs (R51). -/
theorem memWrite_twice_len {s u t : State} {k n : Nat} {v : Word32} (h : memWrite s k n v = some u)
    (h' : memWrite u k n v = some t) : t.len = u.len := by
  rw [memWrite_len h', memWrite_len h, max_assoc, max_self]

/-- Settles O31: the second write is defined and leaves the same bits and the same length; canonical cells with the same
bits are the same cells (`cells_eq_of_streamBit`), and MemWrite writes nothing else. -/
theorem memWriteTwiceIsOnce : Obligations.MemWriteTwiceIsOnce := by
  rintro s u k n v ⟨-, -, hs⟩ h
  obtain ⟨t, h'⟩ := memWrite_again_defined h
  have hu : CellsOk u := memWrite_cellsOk h hs
  have ht : CellsOk t := memWrite_cellsOk h' hu
  have hcells : t.cells = u.cells := cells_eq_of_streamBit ht.1 hu.1 (memWrite_twice_streamBit hs.1 hu.1 h h')
  have htu : t = u := by
    rw [memWrite_fields h', hcells, memWrite_twice_len h h']
  rw [h', htu]

end Sys2Proof.Machine
end

section
/-! SUPPORT. The statements about the command word (30_encoding.md): what the fields of an encoded word and of a row of the
opcode map are, then the round trips, the row lookup, the one response of each word, and the assembler. -/

namespace Sys2Proof

/-! ### The fields of a word against the fields of a command (R62 to R66) -/

/-- The family of Laws/PerInstr.lean as one fact. -/
theorem encode_fields (i : Instr) : Laws.EncodeFields.Statement i := by
  cases i with
  | rd n => exact Laws.EncodeFields.rd n
  | wr n value => exact Laws.EncodeFields.wr n value
  | seek arg => exact Laws.EncodeFields.seek arg
  | pos => exact Laws.EncodeFields.pos
  | len => exact Laws.EncodeFields.len
  | clr => exact Laws.EncodeFields.clr
  | enc t ch => exact Laws.EncodeFields.enc t ch
  | dec t word => exact Laws.EncodeFields.dec t word
  | lrcclr => exact Laws.EncodeFields.lrcclr
  | lrcadd t ch => exact Laws.EncodeFields.lrcadd t ch
  | lrcget t => exact Laws.EncodeFields.lrcget t

theorem widthOk_iff {n : Nat} : widthOk n = true ↔ 1 ≤ n ∧ n ≤ 32 := by
  simp [widthOk]

/-- `NM1` has five bits, so a width that a word carries is one of 1 to 32 (R64). -/
theorem widthOk_modWidth (md : BitVec 8) : widthOk (modWidth md) = true := by
  have hfive : (md.extractLsb' 0 5).toNat < 2 ^ 5 := BitVec.isLt _
  rw [widthOk_iff, modWidth]
  omega

theorem modWidth_widthMod {n : Nat} (h : widthOk n = true) : modWidth (widthMod n) = n := by
  obtain ⟨hpos, hle⟩ := widthOk_iff.mp h
  have hfield : (widthMod n).extractLsb' 0 5 = BitVec.ofNat 5 (n - 1) := by
    refine BitVec.eq_of_getLsbD_eq fun i hi => ?_
    simp [widthMod, hi, show i < 8 by omega]
  rw [modWidth, hfield, BitVec.toNat_ofNat, Nat.mod_eq_of_lt (by omega)]
  omega

theorem modTSel_tselMod (t : TSel) : modTSel (tselMod t) = t := by
  cases t <;> rfl

/-- A bit of `MOD` that the format says must be 0 is 0 (R63, R65). -/
theorem mod_getLsbD_eq_false {f : Format} {md : BitVec 8} (h : md &&& f.modMustBeZero = 0) {i : Nat}
    (hi : f.modMustBeZero.getLsbD i = true) : md.getLsbD i = false := by
  have hbit := congrArg (fun v => v.getLsbD i) h
  simpa [hi] using hbit

theorem formatN_upper_bits_mustBeZero : ∀ i < 8, 5 ≤ i → Format.n.modMustBeZero.getLsbD i = true := by
  decide

theorem formatT_upper_bits_mustBeZero : ∀ i < 8, 1 ≤ i → Format.t.modMustBeZero.getLsbD i = true := by
  decide

/-- A byte whose bits from `k` on are 0 is its low `k` bits. -/
theorem setWidth_extractLsb'_of_upper_zero {md : BitVec 8} {k : Nat} (h : ∀ i < 8, k ≤ i → md.getLsbD i = false) :
    (md.extractLsb' 0 k).setWidth 8 = md := by
  refine BitVec.eq_of_getLsbD_eq fun i hi => ?_
  rcases Nat.lt_or_ge i k with hk | hk
  · simp [hi, hk]
  · simp [h i hi hk, Nat.not_lt.mpr hk]

/-- Format N drops no bit of `MOD`: five of them are `NM1`, the others are 0. -/
theorem widthMod_modWidth {md : BitVec 8} (h : md &&& Format.n.modMustBeZero = 0) : widthMod (modWidth md) = md := by
  have hfield : widthMod (modWidth md) = (md.extractLsb' 0 5).setWidth 8 := by
    rw [widthMod, modWidth, Nat.add_sub_cancel, BitVec.ofNat_toNat, BitVec.setWidth_eq]
  rw [hfield]
  exact setWidth_extractLsb'_of_upper_zero fun i hi hk =>
    mod_getLsbD_eq_false h (formatN_upper_bits_mustBeZero i hi hk)

/-- Format T drops no bit of `MOD`: bit 0 is `TSEL`, the others are 0. -/
theorem tselMod_modTSel {md : BitVec 8} (h : md &&& Format.t.modMustBeZero = 0) : tselMod (modTSel md) = md := by
  have hbit : md.extractLsb' 0 1 = BitVec.ofBool (md.getLsbD 0) :=
    BitVec.eq_of_getLsbD_eq fun i hi => by simp [Nat.lt_one_iff.mp hi]
  have hfield : tselMod (modTSel md) = (md.extractLsb' 0 1).setWidth 8 := by
    rw [hbit, modTSel]
    cases md.getLsbD 0 <;> rfl
  rw [hfield]
  exact setWidth_extractLsb'_of_upper_zero fun i hi hk =>
    mod_getLsbD_eq_false h (formatT_upper_bits_mustBeZero i hi hk)

/-! ### A command against its operation and fields -/

theorem instr_of_fields {i : Instr} (h : i.WellFormed) : i.opcode.instr i.modField i.argField = i := by
  cases i with
  | rd n => exact congrArg Instr.rd (modWidth_widthMod h)
  | wr n value => exact congrArg (Instr.wr · value) (modWidth_widthMod h)
  | enc t ch => exact congrArg (Instr.enc · ch) (modTSel_tselMod t)
  | dec t word => exact congrArg (Instr.dec · word) (modTSel_tselMod t)
  | lrcadd t ch => exact congrArg (Instr.lrcadd · ch) (modTSel_tselMod t)
  | lrcget t => exact congrArg Instr.lrcget (modTSel_tselMod t)
  | seek | pos | len | clr | lrcclr => rfl

@[simp] theorem instr_opcode (o : Opcode) (md : BitVec 8) (arg : Word32) : (o.instr md arg).opcode = o := by
  cases o <;> rfl

theorem instr_modField {o : Opcode} {md : BitVec 8} (arg : Word32) (h : md &&& o.format.modMustBeZero = 0) :
    (o.instr md arg).modField = md := by
  cases o with
  | rd | wr => exact widthMod_modWidth h
  | enc | dec | lrcadd | lrcget => exact tselMod_modTSel h
  | seek | pos | len | clr | lrcclr => exact h.symm.trans BitVec.and_allOnes

theorem instr_argField {o : Opcode} (md : BitVec 8) {arg : Word32} (h : o.argMustBeZero = true → arg = 0) :
    (o.instr md arg).argField = arg := by
  cases o with
  | rd | pos | len | clr | lrcclr | lrcget => exact (h rfl).symm
  | wr | seek | enc | dec | lrcadd => rfl

theorem instr_wellFormed (o : Opcode) (md : BitVec 8) (arg : Word32) : (o.instr md arg).WellFormed := by
  cases o with
  | rd | wr => exact widthOk_modWidth md
  | seek | pos | len | clr | enc | dec | lrcclr | lrcadd | lrcget => rfl

/-! ### The two round trips (R62 to R67) -/

/-- Settles O1: the word has its operation's `OP` and zeros in its unused fields (`encode_fields`), and its operands give
the command back (`instr_of_fields`). -/
theorem decodingTheEncodingGivesTheCommand : Obligations.DecodingTheEncodingGivesTheCommand := by
  intro i hi
  obtain ⟨hop, hrsv, hmod, harg⟩ := encode_fields i
  refine decode_eq_ok.mpr ⟨i.opcode, by rw [hop, ofCode_code], hrsv, hmod, harg, ?_⟩
  rw [encode, cmdMod_packCmd, cmdArg_packCmd, instr_of_fields hi]

/-- Settles O2: no operation drops a bit of `MOD` or `ARG`, and with `RSV = 0` a word is packed from its other fields. -/
theorem encodingTheDecodedCommandGivesTheWord : Obligations.EncodingTheDecodedCommandGivesTheWord := by
  intro w i h
  obtain ⟨o, hop, hrsv, hmod, harg, rfl⟩ := decode_eq_ok.mp h
  refine ⟨?_, instr_wellFormed o _ _⟩
  rw [encode, instr_opcode, instr_modField _ hmod, instr_argField _ harg, code_of_ofCode hop, packCmd_fields hrsv]

/-! ### The opcode map as rows of match and mask (R66, R67) -/

/-- The words of an operation: its `OP`, and zero in every field that it does not use (R63, R65). -/
def Opcode.Holds (o : Opcode) (w : CmdWord) : Prop :=
  cmdOp w = o.code ∧ cmdMod w &&& o.format.modMustBeZero = 0 ∧ cmdRsv w = 0 ∧ (o.argMustBeZero = true → cmdArg w = 0)

theorem decode_opcode_iff {w : CmdWord} {o : Opcode} :
    (∃ i, decode w = .ok i ∧ i.opcode = o) ↔ o.Holds w := by
  constructor
  · rintro ⟨i, hi, rfl⟩
    obtain ⟨o, hop, hrsv, hmod, harg, rfl⟩ := decode_eq_ok.mp hi
    rw [instr_opcode]
    exact ⟨(code_of_ofCode hop).symm, hmod, hrsv, harg⟩
  · rintro ⟨hop, hmod, hrsv, harg⟩
    exact ⟨_, decode_eq_ok.mpr ⟨o, by rw [hop, ofCode_code], hrsv, hmod, harg, rfl⟩, instr_opcode o _ _⟩

/-- What `ARG` is compared with in the column mask (R65). -/
def Opcode.argMask (o : Opcode) : Word32 :=
  if o.argMustBeZero then BitVec.allOnes 32 else 0

theorem and_argMask_eq_zero_iff {o : Opcode} {arg : Word32} :
    arg &&& o.argMask = 0 ↔ (o.argMustBeZero = true → arg = 0) := by
  rw [Opcode.argMask]
  split
  · rename_i h; rw [BitVec.and_allOnes]; simp [h]
  · rename_i h; simp [h]

/-- The columns match and mask, field by field. -/
theorem row_columns : ∀ r ∈ opcodeRows, r.pattern = packCmd r.opcode.code 0 0 ∧
    cmdOp r.mask = BitVec.allOnes 8 ∧ cmdMod r.mask = r.opcode.format.modMustBeZero ∧
    cmdRsv r.mask = BitVec.allOnes 16 ∧ cmdArg r.mask = r.opcode.argMask := by
  decide

theorem eq_packCmd_iff {w : CmdWord} {op md : BitVec 8} {arg : Word32} :
    w = packCmd op md arg ↔ cmdOp w = op ∧ cmdMod w = md ∧ cmdRsv w = 0 ∧ cmdArg w = arg := by
  constructor
  · rintro rfl
    exact ⟨cmdOp_packCmd .., cmdMod_packCmd .., cmdRsv_packCmd .., cmdArg_packCmd ..⟩
  · rintro ⟨rfl, rfl, hrsv, rfl⟩
    exact (packCmd_fields hrsv).symm

theorem cmdOp_and (v w : CmdWord) : cmdOp (v &&& w) = cmdOp v &&& cmdOp w := BitVec.extractLsb'_and

theorem cmdMod_and (v w : CmdWord) : cmdMod (v &&& w) = cmdMod v &&& cmdMod w := BitVec.extractLsb'_and

theorem cmdRsv_and (v w : CmdWord) : cmdRsv (v &&& w) = cmdRsv v &&& cmdRsv w := BitVec.extractLsb'_and

theorem cmdArg_and (v w : CmdWord) : cmdArg (v &&& w) = cmdArg v &&& cmdArg w := BitVec.extractLsb'_and

/-- The test of a row compares the fields of the word one by one. -/
theorem row_matches_iff {r : OpcodeRow} (hr : r ∈ opcodeRows) (w : CmdWord) :
    w &&& r.mask = r.pattern ↔ r.opcode.Holds w := by
  obtain ⟨hpattern, hop, hmod, hrsv, harg⟩ := row_columns r hr
  rw [hpattern, eq_packCmd_iff, cmdOp_and, cmdMod_and, cmdRsv_and, cmdArg_and, hop, hmod, hrsv, harg,
    BitVec.and_allOnes, BitVec.and_allOnes, and_argMask_eq_zero_iff, Opcode.Holds]

/-- Settles O3: both sides say `Opcode.Holds`. -/
theorem wordIsTheRowsCommandExactlyWhenItMatches : Obligations.WordIsTheRowsCommandExactlyWhenItMatches :=
  fun w _ hr => (row_matches_iff hr w).trans decode_opcode_iff.symm

theorem exists_row (o : Opcode) : ∃ r ∈ opcodeRows, r.opcode = o := by
  cases o <;> decide

theorem row_eq_of_opcode_eq : ∀ r₁ ∈ opcodeRows, ∀ r₂ ∈ opcodeRows, r₁.opcode = r₂.opcode → r₁ = r₂ := by
  decide

/-- At most one row matches: the word decodes to one command, which has one operation. -/
theorem row_unique {w : CmdWord} {r₁ r₂ : OpcodeRow} (hr₁ : r₁ ∈ opcodeRows) (hr₂ : r₂ ∈ opcodeRows)
    (h₁ : w &&& r₁.mask = r₁.pattern) (h₂ : w &&& r₂.mask = r₂.pattern) : r₁ = r₂ := by
  obtain ⟨i₁, hi₁, ho₁⟩ := (wordIsTheRowsCommandExactlyWhenItMatches w r₁ hr₁).mp h₁
  obtain ⟨i₂, hi₂, ho₂⟩ := (wordIsTheRowsCommandExactlyWhenItMatches w r₂ hr₂).mp h₂
  obtain rfl : i₁ = i₂ := Except.ok.inj (hi₁.symm.trans hi₂)
  exact row_eq_of_opcode_eq r₁ hr₁ r₂ hr₂ (ho₁.symm.trans ho₂)

/-- A word is illegal exactly when no row matches it: every operation has a row (R67, R68). -/
theorem no_row_matches_iff {w : CmdWord} :
    (∀ r ∈ opcodeRows, w &&& r.mask ≠ r.pattern) ↔ ∃ e, decode w = .error e := by
  constructor
  · intro hnone
    cases hw : decode w with
    | error e => exact ⟨e, rfl⟩
    | ok i =>
      obtain ⟨r, hr, ho⟩ := exists_row i.opcode
      exact absurd ((wordIsTheRowsCommandExactlyWhenItMatches w r hr).mpr ⟨i, hw, ho.symm⟩) (hnone r hr)
  · rintro ⟨e, he⟩ r hr hmatch
    obtain ⟨i, hi, -⟩ := (wordIsTheRowsCommandExactlyWhenItMatches w r hr).mp hmatch
    cases he.symm.trans hi

theorem modWidth_cmdMod (w : CmdWord) : modWidth (cmdMod w) = (w.extractLsb' 48 5).toNat + 1 := by
  have hfield : (cmdMod w).extractLsb' 0 5 = w.extractLsb' 48 5 := by
    refine BitVec.eq_of_getLsbD_eq fun i hi => ?_
    simp [cmdMod, hi, show i < 8 by omega]
  rw [modWidth, hfield]

theorem modTSel_cmdMod (w : CmdWord) : modTSel (cmdMod w) = if w.getLsbD 48 then TSel.five else TSel.seven := by
  simp [modTSel, cmdMod]

/-- Settles O4: `row_unique`, `no_row_matches_iff`, and the operands as the decoder assembles them from the fields. -/
theorem rowLookupDecidesTheWord : Obligations.RowLookupDecidesTheWord := by
  intro w
  refine ⟨fun r hr => (wordIsTheRowsCommandExactlyWhenItMatches w r hr).mp, fun _ hr₁ _ hr₂ => row_unique hr₁ hr₂,
    fun i hi => ?_, no_row_matches_iff⟩
  obtain ⟨o, -, -, -, -, rfl⟩ := decode_eq_ok.mp hi
  cases o with
  | rd => exact modWidth_cmdMod w
  | wr => exact ⟨modWidth_cmdMod w, rfl⟩
  | seek => exact rfl
  | pos | len | clr | lrcclr => exact trivial
  | enc | dec | lrcadd => exact ⟨modTSel_cmdMod w, rfl⟩
  | lrcget => exact modTSel_cmdMod w

/-- Settles O5: the decoder computes on the six words. -/
theorem exampleWordsDecode : Obligations.ExampleWordsDecode := by
  unfold Obligations.ExampleWordsDecode
  decide

end Sys2Proof

namespace Sys2Proof.Machine

/-- Settles O6: the two halves of the concatenation, and the code of each status. -/
theorem responseWordHoldsStatusAndData : Obligations.ResponseWordHoldsStatusAndData := by
  rintro ⟨status, data⟩
  refine ⟨BitVec.extractLsb'_append_eq_right, BitVec.extractLsb'_append_eq_left.trans ?_⟩
  cases status <;> rfl

/-! ### The step on a command word (R60, R61) -/

theorem runCommand_of_ok {w : CmdWord} {i : Instr} (h : decode w = .ok i) (s : State) :
    runCommand w s = exec i s := by
  rw [runCommand, h]

theorem runCommand_of_error {w : CmdWord} {e : Illegal} (h : decode w = .error e) (s : State) :
    runCommand w s = .next (s.raise .illegal) := by
  rw [runCommand, h, completed_eq]

theorem step_command {s : State} {w : CmdWord} {rest : List HostMove} (h : s.moves = .command w :: rest) :
    step s = runCommand w { s with moves := rest } := by
  rw [step, h]

/-- Settles O7: `step_command`, then `runCommand_of_ok`. -/
theorem stepRunsTheDecodedCommand : Obligations.StepRunsTheDecodedCommand :=
  fun _ _ _ _ hmoves hdecode => (step_command hmoves).trans (runCommand_of_ok hdecode _)

theorem decodeTableWord_eq_some {nbits w : Nat} {i : Instr} :
    decodeTableWord nbits w = some i ↔ decode (tableWord nbits w) = .ok i := by
  rw [decodeTableWord]
  cases decode (tableWord nbits w) <;> simp

/-- Settles O8: with the presented word taken, the moves are those of the state itself. -/
theorem presentedTableWordRunsNext : Obligations.PresentedTableWordRunsNext :=
  fun s nbits w _ h =>
    stepRunsTheDecodedCommand _ _ _ _ (State.withFetchWord_moves s nbits w) (decodeTableWord_eq_some.mp h)

/-- A well-formed command answers in every state with the invariants: RD and WR reach MemRead and MemWrite only inside
their domains (R43, R45, R61). -/
theorem exec_safe {i : Instr} {s : State} (hi : i.WellFormed) (hs : s.Inv) : Safe (exec i s) := by
  cases i with
  | rd n =>
    obtain ⟨hpos, hle⟩ := widthOk_iff.mp hi
    rcases Nat.lt_or_ge (8 * s.len) (s.cursor + n) with heod | hremain
    · exact ⟨_, exec_rd_of_eod heod⟩
    · obtain ⟨d, hread⟩ := memRead_defined hpos hle hremain
      exact ⟨_, exec_rd_of_memRead hread⟩
  | wr n value =>
    obtain ⟨hpos, hle⟩ := widthOk_iff.mp hi
    obtain ⟨hcursor, -⟩ := hs
    rcases Nat.lt_or_ge s.cfg.cap (ceil8 (s.cursor + n)) with hover | hfit
    · exact ⟨_, exec_wr_of_overflow hover⟩
    · exact ⟨_, exec_wr_of_memWrite (memWrite_lowBits value hpos hle hcursor hfit)⟩
  | enc t ch =>
    obtain ⟨x, -, he⟩ | ⟨-, he⟩ := execEnc_cases t ch s
    · exact ⟨_, he⟩
    · exact ⟨_, he⟩
  | lrcadd t ch =>
    obtain ⟨x, -, he⟩ | ⟨-, he⟩ := execLrcadd_cases t ch s
    · exact ⟨_, he⟩
    · exact ⟨_, he⟩
  | seek | pos | len | clr | dec | lrcclr | lrcget => exact ⟨_, rfl⟩

/-- Every word is answered in every state with the invariants: a legal one carries a well-formed command. -/
theorem runCommand_safe (w : CmdWord) {s : State} (hs : s.Inv) : Safe (runCommand w s) := by
  cases hw : decode w with
  | ok i =>
    rw [runCommand_of_ok hw]
    exact exec_safe (encodingTheDecodedCommandGivesTheWord w i hw).2 hs
  | error e => exact ⟨_, runCommand_of_error hw s⟩

/-- Settles O15: only a command word could stop the step (`runCommand_safe`), and taking it keeps the invariants. -/
theorem noStepStops : Obligations.NoStepStops := by
  intro s hs
  cases hmoves : s.moves with
  | nil => exact ⟨s, by rw [step, hmoves]⟩
  | cons move rest =>
    cases move with
    | command w =>
      rw [step_command hmoves]
      exact runCommand_safe w (s := { s with moves := rest }) hs
    | reset abandoned => exact ⟨_, by rw [step, hmoves]⟩

/-! ### The response depends on nothing but the state and the word (R61) -/

/-- The state with other host moves to come and other responses given. -/
def State.withPorts (s : State) (moves : List HostMove) (responses : List Response) : State :=
  { s with moves := moves, responses := responses }

section WithPorts

variable {s : State} (moves : List HostMove) (responses : List Response)

theorem memRead_withPorts (k n : Nat) : memRead (s.withPorts moves responses) k n = memRead s k n :=
  memRead_congr rfl rfl k n

theorem storeBits_withPorts (k n : Nat) (v : Word32) :
    storeBits (s.withPorts moves responses) k n v = (storeBits s k n v).withPorts moves responses := by
  have hcells : (storeBits (s.withPorts moves responses) k n v).cells = (storeBits s k n v).cells :=
    storeBits_cells_congr (a := s.withPorts moves responses) (b := s) rfl k n v
  rw [storeBits_fields (s.withPorts moves responses), hcells, storeBits_fields s]
  rfl

theorem memWrite_withPorts {u : State} {k n : Nat} {v : Word32} (h : memWrite s k n v = some u) :
    memWrite (s.withPorts moves responses) k n v = some (u.withPorts moves responses) := by
  obtain ⟨hdomain, rfl⟩ := memWrite_eq_some.mp h
  exact memWrite_eq_some.mpr ⟨hdomain, (storeBits_withPorts moves responses k n v).symm⟩

end WithPorts

/-- What a command answers from `s` when it goes to `t`: one response, the same whatever stands in the ports. -/
def AnswersWhateverThePorts (run : State → Host.Outcome State Fault Refusal) (s t : State) : Prop :=
  ∃ r, ∀ moves responses,
    run (s.withPorts moves responses) = .next (t.withPorts moves (responses ++ [r]))

/-- A command's conditions read no port, and it adds one response. -/
theorem exec_answersWhateverThePorts {i : Instr} {s t : State} (h : exec i s = .next t) :
    AnswersWhateverThePorts (exec i) s t := by
  cases i with
  | rd n =>
    obtain ⟨heod, rfl⟩ | ⟨d, hread, rfl⟩ := execRd_cases h
    · exact ⟨⟨.eod, 0⟩, fun moves responses => exec_rd_of_eod (s := s.withPorts moves responses) heod⟩
    · exact ⟨⟨.ok, d⟩, fun moves responses => exec_rd_of_memRead ((memRead_withPorts moves responses _ n).trans hread)⟩
  | wr n value =>
    obtain ⟨hover, rfl⟩ | ⟨u, hwrite, rfl⟩ := execWr_cases h
    · exact ⟨⟨.overflow, 0⟩, fun moves responses => exec_wr_of_overflow (s := s.withPorts moves responses) hover⟩
    · exact ⟨⟨.ok, 0⟩, fun moves responses =>
        exec_wr_of_memWrite (s := s.withPorts moves responses) (memWrite_withPorts moves responses hwrite)⟩
  | enc u ch =>
    obtain ⟨x, hx, he⟩ | ⟨hx, he⟩ := execEnc_cases u ch s <;> obtain rfl := Host.Outcome.next.inj (he.symm.trans h)
    · exact ⟨⟨.ok, x.setWidth 32⟩, fun moves responses => exec_enc_of_entry (s := s.withPorts moves responses) hx⟩
    · exact ⟨⟨.invalidChar, 0⟩, fun moves responses => exec_enc_of_no_entry (s := s.withPorts moves responses) hx⟩
  | lrcadd u ch =>
    obtain ⟨x, hx, he⟩ | ⟨hx, he⟩ := execLrcadd_cases u ch s <;> obtain rfl := Host.Outcome.next.inj (he.symm.trans h)
    · exact ⟨⟨.ok, 0⟩, fun moves responses => exec_lrcadd_of_entry (s := s.withPorts moves responses) hx⟩
    · exact ⟨⟨.invalidChar, 0⟩, fun moves responses => exec_lrcadd_of_no_entry (s := s.withPorts moves responses) hx⟩
  | seek | clr | lrcclr =>
    obtain rfl := Host.Outcome.next.inj h
    exact ⟨⟨.ok, 0⟩, fun _ _ => rfl⟩
  | pos =>
    obtain rfl := Host.Outcome.next.inj h
    exact ⟨⟨.ok, BitVec.ofNat 32 s.cursor⟩, fun _ _ => rfl⟩
  | len =>
    obtain rfl := Host.Outcome.next.inj h
    exact ⟨⟨.ok, BitVec.ofNat 32 s.len⟩, fun _ _ => rfl⟩
  | dec u word =>
    obtain rfl := Host.Outcome.next.inj h
    exact ⟨⟨.ok, BitVec.ofNat 32 (decWord s.cfg u word.toNat)⟩, fun _ _ => rfl⟩
  | lrcget u =>
    obtain rfl := Host.Outcome.next.inj h
    exact ⟨⟨.ok, (lrcWord u (s.acc.setWidth u.width)).setWidth 32⟩, fun _ _ => rfl⟩

theorem runCommand_answersWhateverThePorts {w : CmdWord} {s t : State} (h : runCommand w s = .next t) :
    AnswersWhateverThePorts (runCommand w) s t := by
  cases hw : decode w with
  | ok i =>
    rw [runCommand_of_ok hw] at h
    obtain ⟨r, hr⟩ := exec_answersWhateverThePorts h
    exact ⟨r, fun moves responses => (runCommand_of_ok hw _).trans (hr moves responses)⟩
  | error e =>
    obtain rfl := Host.Outcome.next.inj ((runCommand_of_error hw s).symm.trans h)
    exact ⟨⟨.illegal, 0⟩, fun moves responses => runCommand_of_error hw (s.withPorts moves responses)⟩

/-- Settles O16: the word is answered (`runCommand_safe`), and that answer reads no port. -/
theorem everyWordGetsOneResponse : Obligations.EveryWordGetsOneResponse := by
  intro s w hs
  obtain ⟨t, ht⟩ := runCommand_safe w hs
  obtain ⟨r, hr⟩ := runCommand_answersWhateverThePorts ht
  exact ⟨r, t, fun rest earlier => (step_command rfl).trans (hr rest earlier)⟩

/-! ### The assembler (R85) -/

/-- WR's row with its two checks as one. -/
theorem asmInstr_wr (n v : Int) : asmInstr .wr [n, v] =
    if (1 ≤ n ∧ n ≤ 32) ∧ 0 ≤ v ∧ v < 2 ^ 32 then some (.wr n.toNat (BitVec.ofNat 32 v.toNat)) else none := by
  rw [ite_and]
  simp only [asmInstr, widthOperand, wordOperand]
  split
  · exact apply_ite (Option.map (Instr.wr n.toNat)) ..
  · rfl

/-- Settles O59: each row is its operand's check with the row's command mapped over it, which `apply_ite` moves under the
check. -/
theorem assemblerFollowsItsTable : Obligations.AssemblerFollowsItsTable := by
  refine ⟨fun n => apply_ite (Option.map Instr.rd) .., asmInstr_wr, fun d => apply_ite (Option.map Instr.seek) ..,
    rfl, rfl, rfl, fun u v => apply_ite (Option.map (Instr.enc u)) .., fun u v => apply_ite (Option.map (Instr.dec u)) ..,
    rfl, fun u v => apply_ite (Option.map (Instr.lrcadd u)) .., fun u => rfl⟩

theorem widthOk_of_widthOperand {v : Int} {n : Nat} (h : widthOperand v = some n) : widthOk n = true := by
  obtain ⟨hrange, hn⟩ := Option.ite_none_right_eq_some.mp h
  obtain rfl := Option.some.inj hn
  rw [widthOk_iff]
  omega

/-- The table gives commands that a word can carry: it checks the widths of RD and WR. -/
theorem wellFormed_of_asmInstr {op : AsmOp} {vs : List Int} {i : Instr} (h : asmInstr op vs = some i) :
    i.WellFormed := by
  unfold asmInstr at h
  split at h
  case h_1 => -- RD
    obtain ⟨k, hk, rfl⟩ := Option.map_eq_some_iff.mp h
    exact widthOk_of_widthOperand hk
  case h_2 => -- WR
    obtain ⟨k, hk, hvalue⟩ := Option.bind_eq_some_iff.mp h
    obtain ⟨value, -, rfl⟩ := Option.map_eq_some_iff.mp hvalue
    exact widthOk_of_widthOperand hk
  case h_3 | h_7 | h_8 | h_10 => -- one operand: SEEK, ENC, DEC, LRCADD
    obtain ⟨arg, -, rfl⟩ := Option.map_eq_some_iff.mp h
    rfl
  case h_4 | h_5 | h_6 | h_9 | h_11 => -- no operand: POS, LEN, CLR, LRCCLR, LRCGET
    obtain rfl := Option.some.inj h
    rfl
  case h_12 => cases h

/-- A command line's command comes from the table. -/
theorem asmInstr_of_asmLine {cs : List Char} {i : Instr} (h : asmLine cs = some (.command i)) :
    ∃ op vs, asmInstr op vs = some i := by
  unfold asmLine at h
  split at h
  · cases h
  · split at h
    · obtain ⟨vs, -, hvs⟩ := Option.bind_eq_some_iff.mp h
      obtain ⟨j, hj, hji⟩ := Option.map_eq_some_iff.mp hvs
      obtain rfl := AsmLine.command.inj hji
      exact ⟨_, vs, hj⟩
    · cases h
  · cases h

/-- The words of a text's lines are encodings of what its command lines say. -/
theorem mem_asmLines {ls : List (List Char)} {ws : List CmdWord} (h : asmLines ls = some ws) {w : CmdWord}
    (hw : w ∈ ws) : ∃ cs i, asmLine cs = some (.command i) ∧ w = encode i := by
  induction ls generalizing ws with
  | nil =>
    obtain rfl := Option.some.inj h
    cases hw
  | cons cs ls ih =>
    rw [asmLines] at h
    split at h
    · rename_i us _ hus
      obtain rfl := Option.some.inj h
      exact ih hus hw
    · rename_i i us hi hus
      obtain rfl := Option.some.inj h
      rcases List.mem_cons.mp hw with rfl | hmem
      · exact ⟨cs, i, hi, rfl⟩
      · exact ih hus hmem
    · cases h

/-- Settles O58: each word encodes a command of the table, which is well-formed, and so decodes to that command. -/
theorem assembledWordsAreNeverIllegal : Obligations.AssembledWordsAreNeverIllegal := by
  intro text ws h w hw
  obtain ⟨cs, i, hline, rfl⟩ := mem_asmLines h hw
  obtain ⟨op, vs, hi⟩ := asmInstr_of_asmLine hline
  exact ⟨i, decodingTheEncodingGivesTheCommand i (wellFormed_of_asmInstr hi)⟩

/-! ### The reference tables (R81, R82) -/

theorem refIso7_bits : ∀ i : Fin 64, ∀ j : Fin 6, refIso7[i].getLsbD (6 - j) = i.val.testBit j := by
  decide

theorem refIso5_bits : ∀ i : Fin 16, ∀ j : Fin 4, refIso5[i].getLsbD (4 - j) = i.val.testBit j := by
  decide

/-- Settles O60: odd parity and distinctness are WF2 and WF1 of the reference configuration. -/
theorem referenceTablesFollowTheirFormula : Obligations.ReferenceTablesFollowTheirFormula := by
  obtain ⟨-, ⟨hdistinct7, hodd7⟩, hdistinct5, hodd5⟩ := reference_wf
  exact ⟨fun i => ⟨refIso7_bits i, hodd7 _ (Vector.mem_toList_iff.mpr (Vector.getElem_mem i.isLt))⟩,
    fun i => ⟨refIso5_bits i, hodd5 _ (Vector.mem_toList_iff.mpr (Vector.getElem_mem i.isLt))⟩,
    hdistinct7, hdistinct5⟩

end Sys2Proof.Machine
end

section
/-! SUPPORT. The statements about the BitCodec commands (40_bitcodec.md): each command in every state, the round trip of
WR, SEEK and RD, then loading and unloading whole bytes, as loops whose invariant says what is left to do. -/

namespace Sys2Proof.Machine

/-! ### RD (R91, R92) -/

/-- Settles O25: the value is MemRead's, which is defined when `n` bits remain. -/
theorem rdAnswersTheNextBits : Obligations.RdAnswersTheNextBits := by
  intro n s hn hn32
  refine ⟨exec_rd_of_eod, fun hremain => ?_⟩
  obtain ⟨v, hread⟩ := memRead_defined hn hn32 hremain
  refine ⟨v, exec_rd_of_memRead hread, ?_, fun j hj => ?_⟩
  · rw [(memRead_eq_some.mp hread).2]
    exact streamValue_lt s s.cursor n
  · rw [memRead_getLsbD hread, show n - 1 - (n - 1 - j) = j by omega, decide_eq_true (by omega), Bool.true_and]

/-! ### WR (R93) -/

/-- The target bits after a write of an operand as WR masks it are the operand's own low bits (R45, R93). -/
theorem memWrite_lowBits_target {s u : State} {k n j : Nat} {value : Word32} (hs : s.cells.wf)
    (h : memWrite s k n (lowBits n value) = some u) (hj : j < n) :
    streamBit u (k + j) = value.getLsbD (n - 1 - j) := by
  obtain ⟨-, hn32, -⟩ := (memWrite_eq_some.mp h).1
  rw [memWrite_streamBit h hs, if_pos (by omega), Nat.add_sub_cancel_left, lowBits_getLsbD hn32,
    decide_eq_true (by omega), Bool.true_and]

/-- Growth by MemWrite reaches no further than the byte of its last target, and it starts inside the buffer or at its
end; so outside the bytes that hold the targets no byte comes to exist (R45, R48). -/
theorem lt_memWrite_len_iff {s u : State} {k n i : Nat} {v : Word32} (h : memWrite s k n v = some u)
    (hi : i < k / 8 ∨ (k + n - 1) / 8 < i) : i < u.len ↔ i < s.len := by
  obtain ⟨hn, -, -, hk, -⟩ := (memWrite_eq_some.mp h).1
  rw [memWrite_len h, lt_max_iff, ceil8]
  omega

/-- MemWrite keeps every byte that holds none of its targets (R48). -/
theorem memWrite_byteAt?_of_outside {s u : State} {k n i : Nat} {v : Word32} (hs : s.cells.wf)
    (h : memWrite s k n v = some u) (hi : i < k / 8 ∨ (k + n - 1) / 8 < i) : u.byteAt? i = s.byteAt? i := by
  have hread : u.cells.read i = s.cells.read i :=
    read_eq_of_streamBit fun m hlo hhi => memWrite_streamBit_of_not_target hs h (by omega)
  simp only [State.byteAt?, lt_memWrite_len_iff h hi, hread]

/-- Settles O27: the bits and bytes are those of MemWrite, which is defined when the write fits; WR adds the cursor and
the response. -/
theorem wrReplacesTheBitsAtTheCursor : Obligations.WrReplacesTheBitsAtTheCursor := by
  rintro n value s ⟨hcursor, -, hwf, hcells⟩ hn hn32
  refine ⟨exec_wr_of_overflow, fun hfit => ?_⟩
  obtain ⟨u, hwrite⟩ : ∃ u, memWrite s s.cursor n (lowBits n value) = some u :=
    ⟨_, memWrite_lowBits value hn hn32 hcursor hfit⟩
  have hfields := memWrite_fields hwrite
  rw [memWrite_len hwrite] at hfields
  refine ⟨_, exec_wr_of_memWrite hwrite, by rw [hfields]; rfl, fun j hj => ?_, fun m _ hm => ?_,
    fun m hend hm _ => ?_, fun i hi => ?_⟩
  · exact (memWrite_lowBits_target hwf hwrite hj :)
  · exact (memWrite_streamBit_of_not_target hwf hwrite hm :)
  · exact (memWrite_streamBit_of_not_target hwf hwrite (.inr hm)).trans (streamBit_beyond hcells hend)
  · exact (memWrite_byteAt?_of_outside hwf hwrite hi :)

/-- Settles O28: WR takes its operand through `lowBits` alone. -/
theorem wrIgnoresTheUpperBits : Obligations.WrIgnoresTheUpperBits := by
  intro n v v' s _ hn32 hagree
  have hlow : lowBits n v = lowBits n v' :=
    BitVec.eq_of_toNat_eq (by rw [lowBits_toNat hn32, lowBits_toNat hn32, hagree])
  rw [exec_wr, exec_wr, hlow]

/-! ### SEEK (R95) -/

/-- Settles O33: the operand is read as two's complement (`seekDelta_eq_toInt`). -/
theorem seekClampsTheCursor : Obligations.SeekClampsTheCursor := by
  intro arg s
  rw [exec_seek, seekDelta_eq_toInt, seekTarget, Nat.cast_mul]
  rfl

theorem seekTarget_of_before_start {d : Int} {s : State} (h : s.cursor + d ≤ 0) : seekTarget d s = 0 := by
  rw [seekTarget]
  omega

theorem seekTarget_of_after_end {d : Int} {s : State} (h : (8 * s.len : Nat) ≤ s.cursor + d) :
    seekTarget d s = 8 * s.len := by
  rw [seekTarget]
  omega

theorem seekTarget_of_inside {d : Int} {s : State} {k : Nat} (h : s.cursor + d = k) (hk : k ≤ 8 * s.len) :
    seekTarget d s = k := by
  rw [seekTarget]
  omega

/-- Under the capacity of R8 no bit offset of the buffer reaches `2^31` (R23). -/
theorem bits_lt_of_capOk {s : State} (hs : s.Inv) (hcap : s.cfg.CapOk) : 8 * s.len < 2 ^ 31 := by
  obtain ⟨-, hlen, -⟩ := hs
  obtain ⟨-, hmax⟩ := hcap
  omega

theorem exec_rewind {s : State} (hs : s.Inv) (hcap : s.cfg.CapOk) :
    exec (.seek rewindArg) s = .next (State.respondOk { s with cursor := 0 } 0) := by
  have hbits := bits_lt_of_capOk hs hcap
  obtain ⟨hcursor, -⟩ := hs
  have hdelta : seekDelta rewindArg = -2 ^ 31 := by decide
  rw [exec_seek, hdelta, seekTarget_of_before_start (by omega)]

/-- Settles O34: the cursor and the length lie below `2^31` (`bits_lt_of_capOk`), so each operand overshoots
its end of the buffer. -/
theorem seekExtremesReachBothEnds : Obligations.SeekExtremesReachBothEnds := by
  intro s hs hcap
  have hbits := bits_lt_of_capOk hs hcap
  have hdelta : seekDelta 0x7FFFFFFF = 2 ^ 31 - 1 := by decide
  refine ⟨exec_rewind hs hcap, ?_⟩
  rw [exec_seek, hdelta, seekTarget_of_after_end (by omega)]
  rfl

/-! ### POS, LEN and CLR (R97 to R99) -/

/-- Settles O35: `bits_lt_of_capOk` says that the 32 bits hold both registers. -/
theorem posAndLenAnswerTheRegisters : Obligations.PosAndLenAnswerTheRegisters := by
  intro s
  refine ⟨⟨_, exec_pos s, fun hs hcap => ?_⟩, _, exec_len s, fun hs hcap => ?_⟩
  · have hbits := bits_lt_of_capOk hs hcap
    obtain ⟨hcursor, -⟩ := hs
    rw [BitVec.toNat_ofNat, Nat.mod_eq_of_lt (by omega)]
    omega
  · have hbits := bits_lt_of_capOk hs hcap
    obtain ⟨-, hlen, -⟩ := hs
    rw [BitVec.toNat_ofNat, Nat.mod_eq_of_lt (by omega)]
    exact ⟨rfl, hlen⟩

/-- Settles O36. -/
theorem clrEmptiesTheCodec : Obligations.ClrEmptiesTheCodec :=
  fun s => ⟨_, exec_clr s, rfl, rfl⟩

/-! ### WR, SEEK back, RD (R94) -/

/-- One step of a run: the oldest word is that of a well-formed command, which answers. -/
theorem run_command {s t : State} {i : Instr} {rest : List HostMove} (k : Nat) (hi : i.WellFormed)
    (hmoves : s.moves = .command (encode i) :: rest) (he : exec i { s with moves := rest } = .next t) :
    Host.Core.run Sys2Proof.core (k + 1) s = Host.Core.run Sys2Proof.core k t := by
  have hstep : Sys2Proof.core.step s = .next t :=
    (stepRunsTheDecodedCommand s _ rest i hmoves (decodingTheEncodingGivesTheCommand i hi)).trans he
  simp only [Host.Core.run, hstep]

theorem exec_seek_back {s : State} {k n : Nat} (hn32 : n ≤ 32) (hcursor : s.cursor = k + n)
    (hend : k + n ≤ 8 * s.len) :
    exec (.seek (BitVec.ofInt 32 (-(n : Int)))) s = .next (State.respondOk { s with cursor := k } 0) := by
  have hdelta : seekDelta (BitVec.ofInt 32 (-(n : Int))) = -n := by
    rw [seekDelta_eq_toInt, BitVec.toInt_ofInt, Int.bmod_eq_of_le (by omega) (by omega)]
  rw [exec_seek, hdelta, seekTarget_of_inside (k := k) (by omega) (by omega)]

/-- A WR that fits leaves the `n` bits before the cursor to read, and they are the operand's (R47, R93). -/
theorem exec_wr_readable {s : State} {n : Nat} (value : Word32) (hs : s.Inv) (hn : 1 ≤ n) (hn32 : n ≤ 32)
    (hfit : ceil8 (s.cursor + n) ≤ s.cfg.cap) :
    ∃ t, exec (.wr n value) s = .next t ∧ t.moves = s.moves ∧ t.responses = s.responses ++ [⟨.ok, 0⟩] ∧
      t.cursor = s.cursor + n ∧ s.cursor + n ≤ 8 * t.len ∧ memRead t s.cursor n = some (lowBits n value) := by
  obtain ⟨hcursor, -, hwf, -⟩ := hs
  obtain ⟨u, hwrite⟩ : ∃ u, memWrite s s.cursor n (lowBits n value) = some u :=
    ⟨_, memWrite_lowBits value hn hn32 hcursor hfit⟩
  have hmoves : u.moves = s.moves := by rw [memWrite_fields hwrite]
  have hresponses : u.responses = s.responses := by rw [memWrite_fields hwrite]
  have hread := memReadAfterMemWriteGivesTheValue s u s.cursor n _ hwf hwrite
  exact ⟨_, exec_wr_of_memWrite hwrite, hmoves, congrArg (· ++ _) hresponses, rfl, (memWrite_target_le hwrite :),
    (memRead_congr rfl rfl _ _).trans hread⟩

/-- Settles O37: the write leaves its bits before the cursor, the seek returns to the first of them, and the read
answers them. -/
theorem writeSeekReadGivesTheValueBack : Obligations.WriteSeekReadGivesTheValueBack := by
  intro n value s rest hs hn hn32 hfit hmoves
  have hwidth : widthOk n = true := widthOk_iff.mpr ⟨hn, hn32⟩
  obtain ⟨t, hwr, htmoves, htresponses, hcursor, hend, hread⟩ := exec_wr_readable (s := { s with
    moves := .command (encode (.seek (BitVec.ofInt 32 (-(n : Int))))) :: .command (encode (.rd n)) :: rest })
    value hs hn hn32 hfit
  have hseek := exec_seek_back (s := { t with moves := .command (encode (.rd n)) :: rest }) hn32 hcursor hend
  have hrd := exec_rd_of_memRead (s := State.respondOk { t with cursor := s.cursor, moves := rest } 0)
    ((memRead_congr rfl rfl _ _).trans hread)
  have hrun := calc Host.Core.run Sys2Proof.core 3 s
    _ = Host.Core.run Sys2Proof.core 2 t := run_command 2 (i := .wr n value) hwidth hmoves hwr
    _ = Host.Core.run Sys2Proof.core 1 _ := run_command 1 rfl htmoves hseek
    _ = .next _ := run_command 0 (i := .rd n) hwidth rfl hrd
  exact ⟨_, lowBits n value, hrun, lowBits_toNat hn32 value, by simp [htresponses], rfl, rfl⟩

/-! ### The loops of a host sequence -/

/-- A sequence for each element of a list completes when, from what `P` says of the elements left, each round completes
and leads to what `P` says of one element fewer. -/
theorem forEach_of_invariant {α : Type} {f : α → State → HostRun Unit} (P : List α → State → Prop)
    (hround : ∀ a as s, P (a :: as) s → ∃ t, f a s = .done () t ∧ P as t) (as : List α) (s : State) (h : P as s) :
    ∃ t, forEach f as s = .done () t ∧ P [] t := by
  induction as generalizing s with
  | nil => exact ⟨s, forEach_nil f s, h⟩
  | cons a as ih =>
    obtain ⟨t, hf, ht⟩ := hround a as s h
    obtain ⟨u, hrest, hu⟩ := ih t ht
    exact ⟨u, by rw [forEach_cons, hf, HostRun.bind_done, hrest], hu⟩

/-- A loop until `EOD` (R192) answers the list `as` when, from what `P` says of the answers to come, each round gives
the first of them, and with none to come the round ends in `EOD`; the bound must exceed their number. -/
theorem untilEod_of_invariant {α : Type} {f : State → HostRun α} (P : List α → State → Prop) (Q : State → Prop)
    (hround : ∀ a as s, P (a :: as) s → ∃ t, f s = .done a t ∧ P as t)
    (hend : ∀ s, P [] s → ∃ t, f s = .stopped .eod t ∧ Q t) (as : List α) (s : State) (k : Nat) (h : P as s)
    (hk : as.length < k) : ∃ t, untilEod f k s = .done as t ∧ Q t := by
  induction as generalizing s k with
  | nil =>
    obtain ⟨k, rfl⟩ : ∃ j, k = j + 1 := ⟨k - 1, by omega⟩
    obtain ⟨t, hf, ht⟩ := hend s h
    exact ⟨t, by rw [untilEod, hf], ht⟩
  | cons a as ih =>
    obtain ⟨k, rfl⟩ : ∃ j, k = j + 1 := ⟨k - 1, by omega⟩
    obtain ⟨t, hf, ht⟩ := hround a as s h
    obtain ⟨u, hrest, hu⟩ := ih t k ht (Nat.lt_of_succ_lt_succ hk)
    exact ⟨u, by rw [untilEod, hf]; simp only [hrest, HostRun.bind_done], hu⟩

/-! ### The commands of loading and unloading (R100) -/

theorem issueOk_clr (s : State) :
    issueOk .clr s = .done 0 (State.respondOk { s with cells := [], len := 0, cursor := 0 } 0) :=
  issueOk_of_exec (decodingTheEncodingGivesTheCommand _ rfl) (exec_clr s) rfl

theorem issueOk_rewind {s : State} (hs : s.Inv) (hcap : s.cfg.CapOk) :
    issueOk (.seek rewindArg) s = .done 0 (State.respondOk { s with cursor := 0 } 0) :=
  issueOk_of_exec (decodingTheEncodingGivesTheCommand _ rfl) (exec_rewind hs hcap) rfl

theorem bufBytes_of_succ {s t : State} {b : Byte} (hlen : t.len = s.len + 1)
    (hold : ∀ i < s.len, t.byteAt? i = s.byteAt? i) (hnew : t.cells.read s.len = b) :
    t.bufBytes = s.bufBytes ++ [b] := by
  rw [State.bufBytes, hlen, List.range_succ, List.map_append, List.map_singleton, hnew, State.bufBytes]
  congr 1
  refine List.map_congr_left fun i hi => ?_
  have hi := List.mem_range.mp hi
  have hbyte := hold i hi
  rw [State.byteAt?, State.byteAt?, if_pos hi, if_pos (by omega)] at hbyte
  exact Option.some.inj hbyte

/-- WR 8 at the end of the buffer appends the byte (R93, R100). -/
theorem issueOk_wr_byte {s : State} (b : Byte) (hs : s.Inv) (hend : s.cursor = 8 * s.len) (hroom : s.len < s.cfg.cap) :
    ∃ t, issueOk (.wr 8 (b.setWidth 32)) s = .done 0 t ∧ t.Inv ∧ t.cfg = s.cfg ∧ t.acc = s.acc ∧
      t.cursor = 8 * t.len ∧ t.bufBytes = s.bufBytes ++ [b] := by
  have hbytes : ceil8 (s.cursor + 8) = s.len + 1 := by
    rw [hend, ceil8]
    omega
  obtain ⟨t, he, hfields, hbits, -, -, hold⟩ :=
    (wrReplacesTheBitsAtTheCursor 8 (b.setWidth 32) s hs (by decide) (by decide)).2 (by omega)
  have hlen : t.len = s.len + 1 := by rw [hfields, hbytes]; exact max_eq_right (Nat.le_succ s.len)
  have hcursor : t.cursor = 8 * t.len := by rw [hlen, hfields, hend]; rfl
  have hnew : t.cells.read s.len = b := by
    refine BitVec.eq_of_getLsbD_eq fun j hj => ?_
    rw [read_getLsbD t s.len j hj, ← hend, hbits (7 - j) (by omega), show 8 - 1 - (7 - j) = j by omega,
      BitVec.getLsbD_setWidth, decide_eq_true (by omega), Bool.true_and]
  exact ⟨t, issueOk_of_exec (decodingTheEncodingGivesTheCommand _ rfl) he (by rw [hfields]), exec_inv hs he,
    by rw [hfields], by rw [hfields], hcursor, bufBytes_of_succ hlen (fun i hi => hold i (by omega)) hnew⟩

/-- MemRead of eight bits at a byte boundary is the byte there, zero extended (R41, R43). -/
theorem memRead_byte {s : State} {i : Nat} (hi : i < s.len) :
    memRead s (8 * i) 8 = some ((s.cells.read i).setWidth 32) := by
  obtain ⟨v, hread⟩ := memRead_defined (s := s) (k := 8 * i) (n := 8) (by decide) (by decide) (by omega)
  have hv : v = (s.cells.read i).setWidth 32 := by
    refine BitVec.eq_of_getLsbD_eq fun j hj => ?_
    rw [memRead_getLsbD hread, BitVec.getLsbD_setWidth, decide_eq_true hj, Bool.true_and]
    rcases Nat.lt_or_ge j 8 with hj8 | hj8
    · rw [decide_eq_true hj8, Bool.true_and, read_getLsbD s i j hj8]
    · rw [decide_eq_false (by omega), Bool.false_and, BitVec.getLsbD_of_ge _ j hj8]
  rw [hread, hv]

/-! ### Loading whole bytes (R100) -/

/-- Between two WR 8 of a loading that began in `s₀`: the bytes so far stand in the buffer, with the cursor at
its end. -/
structure Loading (s₀ : State) (bytes rest : List Byte) (s : State) : Prop where
  inv : s.Inv
  cfg : s.cfg = s₀.cfg
  acc : s.acc = s₀.acc
  cursor : s.cursor = 8 * s.len
  bytes : s.bufBytes ++ rest = bytes

/-- CLR leaves every byte to load. -/
theorem Loading.start (s : State) (bytes : List Byte) :
    Loading s bytes bytes (State.respondOk { s with cells := [], len := 0, cursor := 0 } 0) :=
  ⟨resetWith_inv s.cfg, rfl, rfl, rfl, rfl⟩

theorem Loading.len {s₀ s : State} {bytes rest : List Byte} (h : Loading s₀ bytes rest s) :
    s.len + rest.length = bytes.length := by
  rw [← h.bytes, List.length_append, bufBytes_length]

theorem Loading.round {s₀ s : State} {bytes rest : List Byte} {b : Byte} (hfit : bytes.length ≤ s₀.cfg.cap)
    (h : Loading s₀ bytes (b :: rest) s) :
    ∃ t, ((issueOk (.wr 8 (b.setWidth 32)) s).bind fun _ v => .done () v) = .done () t ∧ Loading s₀ bytes rest t := by
  have hlen := h.len
  rw [List.length_cons] at hlen
  obtain ⟨t, ht, hinv, hcfg, hacc, hcursor, hbytes⟩ := issueOk_wr_byte b h.inv h.cursor (by rw [h.cfg]; omega)
  refine ⟨t, by rw [ht, HostRun.bind_done], hinv, hcfg.trans h.cfg, hacc.trans h.acc, hcursor, ?_⟩
  rw [hbytes, List.append_assoc, List.singleton_append, h.bytes]

/-- Settles O49: `Loading` holds after CLR and through every WR 8; the rewind moves the cursor alone. -/
theorem loadingLeavesTheBytes : Obligations.LoadingLeavesTheBytes := by
  intro s bytes hcap hfit
  obtain ⟨t, hloop, hloaded⟩ := forEach_of_invariant (Loading s bytes) (fun _ _ _ h => h.round hfit) bytes _
    (Loading.start s bytes)
  have hlegal : t.cfg.CapOk := hloaded.cfg.symm ▸ hcap
  refine ⟨State.respondOk { t with cursor := 0 } 0, ?_, (List.append_nil _).symm.trans hloaded.bytes, hloaded.len, rfl,
    hloaded.acc, hloaded.cfg, exec_inv hloaded.inv (exec_rewind hloaded.inv hlegal)⟩
  rw [loadBytes, issueOk_clr, HostRun.bind_done, hloop, HostRun.bind_done, issueOk_rewind hloaded.inv hlegal,
    HostRun.bind_done]

/-! ### Unloading whole bytes (R100) -/

/-- Between two RD 8 of an unloading of the buffer of `s₀`: the buffer is unchanged, and the answers to come are its
bytes from the cursor on. -/
structure Unloading (s₀ : State) (answers : List Word32) (s : State) : Prop where
  cells : s.cells = s₀.cells
  len : s.len = s₀.len
  rest : ∃ i, i ≤ s₀.len ∧ s.cursor = 8 * i ∧ answers = (s₀.bufBytes.drop i).map fun b => b.setWidth 32

/-- The rewind leaves every byte to answer. -/
theorem Unloading.start (s : State) :
    Unloading s (s.bufBytes.map fun b => b.setWidth 32) (State.respondOk { s with cursor := 0 } 0) :=
  ⟨rfl, rfl, 0, Nat.zero_le _, rfl, rfl⟩

theorem bufBytes_drop {s : State} {i : Nat} (hi : i < s.len) :
    s.bufBytes.drop i = s.cells.read i :: s.bufBytes.drop (i + 1) := by
  rw [List.drop_eq_getElem_cons (by rwa [bufBytes_length])]
  simp [State.bufBytes]

theorem bufBytes_drop_len (s : State) : s.bufBytes.drop s.len = [] :=
  List.drop_eq_nil_of_le (bufBytes_length s).le

theorem Unloading.round {s₀ s : State} {v : Word32} {vs : List Word32} (h : Unloading s₀ (v :: vs) s) :
    ∃ t, issueOk (.rd 8) s = .done v t ∧ Unloading s₀ vs t := by
  obtain ⟨hcells, hlen, i, hi, hcursor, hanswers⟩ := h
  rcases hi.lt_or_eq with hi | rfl
  · rw [bufBytes_drop hi, List.map_cons, List.cons.injEq] at hanswers
    obtain ⟨rfl, rfl⟩ := hanswers
    have hread : memRead s s.cursor 8 = some ((s₀.cells.read i).setWidth 32) := by
      rw [hcursor, memRead_byte (hlen ▸ hi), hcells]
    exact ⟨_, issueOk_of_exec (decodingTheEncodingGivesTheCommand _ rfl) (exec_rd_of_memRead hread) rfl,
      hcells, hlen, i + 1, hi, congrArg (· + 8) hcursor, rfl⟩
  · rw [bufBytes_drop_len] at hanswers
    exact absurd hanswers (List.cons_ne_nil v vs)

theorem Unloading.eod {s₀ s : State} (h : Unloading s₀ [] s) :
    ∃ t, issueOk (.rd 8) s = .stopped .eod t ∧ t.cells = s₀.cells ∧ t.len = s₀.len ∧ t.cursor = 8 * s₀.len := by
  obtain ⟨hcells, hlen, i, hi, hcursor, hanswers⟩ := h
  rcases hi.lt_or_eq with hi | rfl
  · rw [bufBytes_drop hi, List.map_cons] at hanswers
    exact absurd hanswers.symm (List.cons_ne_nil _ _)
  · have heod : exec (.rd 8) s = .next (s.raise .eod) := exec_rd_of_eod (by omega)
    exact ⟨_, issueOk_stopped (decodingTheEncodingGivesTheCommand _ rfl) heod rfl (by decide), hcells, hlen, hcursor⟩

/-- Settles O50: `Unloading` holds after the rewind and through every RD 8; a byte is the low 8 bits of the answer that
carries it. -/
theorem unloadingAnswersTheBytes : Obligations.UnloadingAnswersTheBytes := by
  intro s hs hcap
  have hbytes : ((s.bufBytes.map fun b => b.setWidth 32).map fun v : Word32 => v.setWidth 8) = s.bufBytes := by
    simp [Function.comp_def]
  have hbound : (s.bufBytes.map fun b => b.setWidth 32 : List Word32).length < 8 * s.len + 1 := by
    rw [List.length_map, bufBytes_length]
    omega
  obtain ⟨t, hloop, ht⟩ := untilEod_of_invariant (Unloading s) _ (fun _ _ _ => Unloading.round)
    (fun _ => Unloading.eod) _ _ _ (Unloading.start s) hbound
  refine ⟨t, ?_, ht⟩
  rw [unloadBytes, issueOk_rewind hs hcap, HostRun.bind_done, readBound, State.respondOk_len, hloop,
    HostRun.bind_done, hbytes]

end Sys2Proof.Machine
end

section
/-! SUPPORT. The statements about the TrackAlphabet lookups (41_trackalphabet.md): what `enc` and `dec` answer, that on
a well-formed table each undoes the other, then the commands ENC and DEC. -/

namespace Sys2Proof.Machine

/-! ### `enc` (R111, R112) -/

/-- R111 inside the table's range. -/
theorem encChar_of_inRange {c : Config} {t : TSel} {ch : Nat} (h : t.base ≤ ch ∧ ch < t.base + t.count) :
    encChar c t ch = some ((c.table t)[ch - t.base]'(by omega)) :=
  dif_pos h

theorem encChar_base_add {c : Config} {t : TSel} {i : Nat} (hi : i < t.count) :
    encChar c t (t.base + i) = some (c.table t)[i] :=
  encChar_eq_some.mpr ⟨i, rfl, hi, rfl⟩

theorem parity_of_encChar {c : Config} {t : TSel} (hwf : c.TableWF t) {ch : Nat} {x : BitVec t.width}
    (h : encChar c t ch = some x) : parity x = true := by
  obtain ⟨i, -, hi, rfl⟩ := encChar_eq_some.mp h
  exact hwf.2 _ (Vector.mem_toList_iff.mpr (Vector.getElem_mem hi))

/-! ### `dec` (R113) -/

/-- No table has an entry for `'~'` or a code above it, so `'~'` marks a word without an entry (R15, R16). -/
theorem base_add_lt_noEntryChar {t : TSel} {i : Nat} (hi : i < t.count) : t.base + i < noEntryChar := by
  cases t <;> simp only [TSel.base, TSel.count, noEntryChar] at * <;> omega

theorem decWord_le_noEntryChar (c : Config) (t : TSel) (word : Nat) : decWord c t word ≤ noEntryChar := by
  obtain ⟨i, hi, -, -, hdec⟩ | ⟨-, hdec⟩ := decWord_cases c t word
  · exact hdec ▸ (base_add_lt_noEntryChar hi).le
  · exact hdec.le

theorem decWord_eq_noEntryChar_iff {c : Config} {t : TSel} {word : Nat} :
    decWord c t word = noEntryChar ↔ ∀ i (h : i < t.count), (c.table t)[i].toNat ≠ word := by
  obtain ⟨i, hi, hword, -, hdec⟩ | ⟨hnone, hdec⟩ := decWord_cases c t word
  · exact ⟨fun h => absurd (hdec ▸ h) (base_add_lt_noEntryChar hi).ne, fun h => absurd hword (h i hi)⟩
  · exact ⟨fun _ => hnone, fun _ => hdec⟩

/-- `enc` answers the word for what `dec` answers, unless that is `'~'`; WF1 is not needed. -/
theorem encChar_decWord {c : Config} {t : TSel} {word : Nat} (h : decWord c t word ≠ noEntryChar) :
    ∃ x, encChar c t (decWord c t word) = some x ∧ x.toNat = word := by
  obtain ⟨i, hi, hword, -, hdec⟩ | ⟨-, hdec⟩ := decWord_cases c t word
  · exact ⟨_, hdec ▸ encChar_base_add hi, hword⟩
  · exact absurd hdec h

/-! ### `dec` on a well-formed table (R113, R114) -/

section TableWF

variable {c : Config} {t : TSel} (hwf : c.TableWF t)
include hwf

/-- WF1 makes the index of an entry unique, so it is the one that `dec` finds. -/
theorem decWord_getElem {i : Nat} (hi : i < t.count) : decWord c t (c.table t)[i].toNat = t.base + i := by
  obtain ⟨j, hj, hword, -, hdec⟩ | ⟨hnone, -⟩ := decWord_cases c t (c.table t)[i].toNat
  · have hentry : (c.table t).toList[j]'(by simpa using hj) = (c.table t).toList[i]'(by simpa using hi) := by
      simpa using BitVec.eq_of_toNat_eq hword
    rw [hdec, (List.Nodup.getElem_inj_iff hwf.1).mp hentry]
  · exact absurd rfl (hnone i hi)

theorem decWord_of_encChar {ch : Nat} {x : BitVec t.width} (h : encChar c t ch = some x) :
    decWord c t x.toNat = ch := by
  obtain ⟨i, rfl, hi, rfl⟩ := encChar_eq_some.mp h
  exact decWord_getElem hwf hi

/-- A codeword has no entry exactly when its popcount is even, because the table holds every odd word (R32). -/
theorem decWord_toNat_eq_noEntryChar_iff (v : BitVec t.width) :
    decWord c t v.toNat = noEntryChar ↔ parity v = false := by
  rw [decWord_eq_noEntryChar_iff, ← Bool.not_eq_true, ← wellFormedTableHoldsTheOddWords c t hwf v,
    Vector.mem_toList_iff, Vector.mem_iff_getElem]
  simp only [ne_eq, ← BitVec.toNat_inj, not_exists]

theorem decWord_eq_noEntryChar_iff_wide_or_even (word : Nat) :
    decWord c t word = noEntryChar ↔ word ≥ 2 ^ t.width ∨ parity (BitVec.ofNat t.width word) = false := by
  rcases Nat.lt_or_ge word (2 ^ t.width) with hlt | hwide
  · rw [or_iff_right hlt.not_ge, ← decWord_toNat_eq_noEntryChar_iff hwf, BitVec.toNat_ofNat, Nat.mod_eq_of_lt hlt]
  · have hnone : decWord c t word = noEntryChar :=
      decWord_eq_noEntryChar_iff.mpr fun i hi => ((c.table t)[i].isLt.trans_le hwide).ne
    exact iff_of_true hnone (.inl hwide)

end TableWF

/-! ### A flipped bit (R114) -/

theorem parity_twoPow {w j : Nat} (hj : j < w) : parity (BitVec.twoPow w j) = true := by
  have hcount : popcount (BitVec.twoPow w j) = (List.range w).count j :=
    List.countP_congr fun i _ => by simp [BitVec.getLsbD_twoPow, hj, eq_comm (a := i)]
  rw [parity, hcount, List.count_eq_one_of_mem List.nodup_range (List.mem_range.mpr hj)]
  rfl

/-! ### The lookups as functions of the table (R112, R114) -/

/-- Settles O42: `dec` undoes `enc`, so `enc` is injective. -/
theorem encIsInjectiveWithOddValues : Obligations.EncIsInjectiveWithOddValues := by
  intro c u hwf ch ch' x h
  refine ⟨parity_of_encChar hwf h, fun h' => ?_⟩
  rw [← decWord_of_encChar hwf h', decWord_of_encChar hwf h]

/-- Settles O43. -/
theorem lookupsRoundTripAndMarkBadWords : Obligations.LookupsRoundTripAndMarkBadWords := by
  intro c u hwf
  refine ⟨decWord_eq_noEntryChar_iff_wide_or_even hwf, fun i hi => ?_, fun _ _ => decWord_of_encChar hwf,
    fun _ => encChar_decWord, fun ch x j h hj => ?_⟩
  · rw [decWord_getElem hwf hi]
    exact (base_add_lt_noEntryChar hi).ne
  · refine (decWord_toNat_eq_noEntryChar_iff hwf _).mpr ?_
    rw [parity_xor, parity_twoPow hj, parity_of_encChar hwf h, Bool.xor_self]

/-! ### The commands ENC and DEC (R115, R116) -/

/-- The 32 bits of `DATA` hold every answer of `dec`. -/
theorem toNat_ofNat_decWord (c : Config) (t : TSel) (word : Nat) :
    (BitVec.ofNat 32 (decWord c t word)).toNat = decWord c t word :=
  (BitVec.toNat_ofNat _ _).trans (Nat.mod_eq_of_lt ((decWord_le_noEntryChar c t word).trans_lt (by decide)))

/-- Settles O40. -/
theorem decAnswersTheCharacter : Obligations.DecAnswersTheCharacter := by
  intro s u word hwf
  refine ⟨_, exec_dec u word s, fun i hi hword => ?_, fun hnone => ?_⟩
  · rw [toNat_ofNat_decWord, ← hword, decWord_getElem hwf hi]
  · rw [decWord_eq_noEntryChar_iff.mpr hnone]
    rfl

theorem exec_enc_of_inRange {t : TSel} {ch : Word32} (s : State)
    (h : t.base ≤ ch.toNat ∧ ch.toNat < t.base + t.count) :
    exec (.enc t ch) s = .next (s.respondOk (((s.cfg.table t)[ch.toNat - t.base]'(by omega)).setWidth 32)) :=
  exec_enc_of_entry (encChar_of_inRange h)

/-- Settles O39: the ranges of the two tables, written out. -/
theorem encAnswersTheTableEntry : Obligations.EncAnswersTheTableEntry := by
  intro s ch
  refine ⟨fun ⟨hlow, hhigh⟩ => ?_, fun hout => ?_, fun ⟨hlow, hhigh⟩ => ?_, fun hout => ?_⟩
  · exact exec_enc_of_inRange (t := .seven) s ⟨hlow, Nat.lt_succ_of_le hhigh⟩
  · exact exec_enc_of_no_entry (encChar_eq_none.mpr (by simp only [TSel.base, TSel.count]; omega))
  · exact exec_enc_of_inRange (t := .five) s ⟨hlow, Nat.lt_succ_of_le hhigh⟩
  · exact exec_enc_of_no_entry (encChar_eq_none.mpr (by simp only [TSel.base, TSel.count]; omega))

end Sys2Proof.Machine
end

section
/-! SUPPORT. The statements about the LRC (42_lrc.md): parity split at bit 0, the exclusive-or of a sequence's
codewords, the laws of the LRC word, then the commands LRCCLR, LRCADD and LRCGET and a run of them. -/

namespace Sys2Proof.Machine

/-! ### The LRC word (R126, R135) -/

/-- A codeword's parity is its bit 0 with the parity of the bits above it (R76, R137). -/
theorem parity_eq_bit_zero_xor {w : Nat} (hw : 0 < w) (v : BitVec w) :
    parity v = (v.getLsbD 0 ^^ parity (v.extractLsb' 1 (w - 1))) := by
  obtain ⟨n, rfl⟩ := Nat.exists_eq_succ_of_ne_zero hw.ne'
  have hrest : (List.range n).foldr (fun i b => v.getLsbD (i + 1) ^^ b) false = parity (v.extractLsb' 1 n) := by
    rw [parity_eq_foldr]
    refine List.foldr_ext _ _ _ fun i hi b => ?_
    simp [List.mem_range.mp hi, Nat.add_comm]
  rw [parity_eq_foldr, List.range_succ_eq_map, List.foldr_cons, List.foldr_map, hrest, Nat.succ_sub_one]

theorem TSel.width_pos (t : TSel) : 0 < t.width := by
  cases t <;> decide

theorem TSel.width_le_seven (t : TSel) : t.width ≤ 7 := by
  cases t <;> decide

theorem lrcWord_extractLsb' (t : TSel) (p : BitVec t.width) :
    (lrcWord t p).extractLsb' 1 (t.width - 1) = p.extractLsb' 1 (t.width - 1) := by
  refine BitVec.eq_of_getLsbD_eq fun i _ => ?_
  simp only [BitVec.getLsbD_extractLsb', Nat.add_comm 1 i, lrcWord_bit_succ]

theorem parity_lrcWord (t : TSel) (p : BitVec t.width) : parity (lrcWord t p) = false := by
  rw [parity_eq_bit_zero_xor (TSel.width_pos t), lrcWord_bit_zero, lrcWord_extractLsb', Bool.xor_self]

/-- The overwritten bit 0 and the new one differ exactly when the exclusive-or has odd popcount (R137). -/
theorem bit_zero_xor_lrcWord_bit_zero (t : TSel) (p : BitVec t.width) :
    (p.getLsbD 0 ^^ (lrcWord t p).getLsbD 0) = parity p := by
  rw [lrcWord_bit_zero, ← parity_eq_bit_zero_xor (TSel.width_pos t)]

/-- `lrc` answers the LRC word of the codewords' exclusive-or (R126). -/
theorem lrc_eq_some {c : Config} {t : TSel} {chars : List Nat} {l : BitVec t.width} :
    lrc c t chars = some l ↔ ∃ p, codewordXor c t chars = some p ∧ lrcWord t p = l :=
  Option.map_eq_some_iff

/-- Settles O47: bit 0 is the parity of the other bits, and a well-formed table has no entry of even popcount. -/
theorem lrcWordIsEvenAndDecodesToNothing : Obligations.LrcWordIsEvenAndDecodesToNothing := by
  intro c u chars l h
  obtain ⟨p, -, rfl⟩ := lrc_eq_some.mp h
  exact ⟨parity_lrcWord u p, fun hwf => (decWord_toNat_eq_noEntryChar_iff hwf _).mpr (parity_lrcWord u p)⟩

/-! ### The exclusive-or of the codewords (R126, R136, R137) -/

theorem codewordXor_of_codewords {c : Config} {t : TSel} {chars : List Nat} {cs : List (BitVec t.width)}
    (h : chars.map (encChar c t) = cs.map some) :
    codewordXor c t chars = some (cs.foldr (fun x p => x ^^^ p) 0) := by
  induction chars generalizing cs with
  | nil =>
    obtain rfl := List.map_eq_nil_iff.mp h.symm
    rfl
  | cons ch chars ih =>
    obtain ⟨x, cs, rfl, hx, hcs⟩ := List.map_eq_cons_iff.mp h.symm
    exact codewordXor_cons.mpr ⟨x, _, hx.symm, ih hcs.symm, rfl⟩

/-- A column of the codewords folds to that column's bit of their exclusive-or (R126). -/
theorem foldr_xor_column {w : Nat} (cs : List (BitVec w)) (i : Nat) (b : Bool) :
    (cs.map fun x => x.getLsbD i).foldr xor b = ((cs.foldr (fun x p => x ^^^ p) 0).getLsbD i ^^ b) := by
  induction cs with
  | nil => simp
  | cons x cs ih => simp [ih]

/-- The exclusive-or of words of odd popcount has the parity of their number (R137). -/
theorem parity_foldr_xor_of_odd {w : Nat} (cs : List (BitVec w)) (hodd : ∀ x ∈ cs, parity x = true) :
    parity (cs.foldr (fun x p => x ^^^ p) 0) = decide (cs.length % 2 = 1) := by
  induction cs with
  | nil => exact parity_zero w
  | cons x cs ih =>
    obtain ⟨hx, hcs⟩ := List.forall_mem_cons.mp hodd
    rw [List.foldr_cons, parity_xor, hx, ih hcs, Bool.true_xor, ← decide_not, List.length_cons, decide_eq_decide]
    omega

/-- Settles O48: above bit 0 the LRC word repeats the codewords' exclusive-or, and at bit 0 the two together give its
parity. -/
theorem lrcColumnLaws : Obligations.LrcColumnLaws := by
  intro c u chars cs l hcs hl
  obtain ⟨p, hp, rfl⟩ := lrc_eq_some.mp hl
  obtain rfl := Option.some.inj ((codewordXor_of_codewords hcs).symm.trans hp)
  refine ⟨fun i hi _ => ?_, fun hwf => ?_⟩
  · obtain ⟨i, rfl⟩ := Nat.exists_eq_add_of_le' hi
    rw [foldr_xor_column, lrcWord_bit_succ, Bool.xor_self]
  · have hodd : ∀ x ∈ cs, parity x = true := fun x hx => by
      obtain ⟨ch, -, hch⟩ := List.mem_map.mp (hcs ▸ List.mem_map_of_mem hx)
      exact parity_of_encChar hwf hch
    have hlength : chars.length = cs.length := by simpa using congrArg List.length hcs
    rw [foldr_xor_column, Bool.xor_false, bit_zero_xor_lrcWord_bit_zero, parity_foldr_xor_of_odd cs hodd, hlength]

/-! ### LRCGET (R131) -/

/-- The bits of LRCGET's answer, within and above the selected width and at bit 0 (R131). -/
theorem exec_lrcget_bits (t : TSel) (s : State) :
    ∃ l : Word32, exec (.lrcget t) s = .next (s.respondOk l) ∧
      (∀ i, 1 ≤ i → i < t.width → l.getLsbD i = s.acc.getLsbD i) ∧ (∀ i, t.width ≤ i → l.getLsbD i = false) ∧
      l.getLsbD 0 = parity (s.acc.extractLsb' 1 (t.width - 1)) := by
  refine ⟨_, exec_lrcget t s, fun i hi hlt => ?_, fun i hge => ?_, ?_⟩
  · obtain ⟨i, rfl⟩ := Nat.exists_eq_add_of_le' hi
    have h32 : i + 1 < 32 := (hlt.trans_le (TSel.width_le_seven t)).trans (by decide)
    rw [BitVec.getLsbD_setWidth, lrcWord_bit_succ, BitVec.getLsbD_setWidth, decide_eq_true hlt, decide_eq_true h32,
      Bool.true_and, Bool.true_and]
  · rw [BitVec.getLsbD_setWidth, BitVec.getLsbD_of_ge _ i hge, Bool.and_false]
  · have hrest : (s.acc.setWidth t.width).extractLsb' 1 (t.width - 1) = s.acc.extractLsb' 1 (t.width - 1) := by
      refine BitVec.eq_of_getLsbD_eq fun i hi => ?_
      simp [hi, show 1 + i < t.width by omega]
    simp [lrcWord_bit_zero, hrest]

/-- Settles O45: the bits of the answer, with the parity at each width written out. -/
theorem lrcgetAnswersTheFinishedWord : Obligations.LrcgetAnswersTheFinishedWord := by
  intro s
  obtain ⟨l7, hget7, hkept7, habove7, hparity7⟩ := exec_lrcget_bits .seven s
  obtain ⟨l5, hget5, hkept5, habove5, hparity5⟩ := exec_lrcget_bits .five s
  refine ⟨⟨l7, hget7, hkept7, habove7, hparity7.trans ?_⟩, ⟨l5, hget5, hkept5, habove5, hparity5.trans ?_⟩⟩
  all_goals simp [parity_eq_foldr, TSel.width, List.range_succ]

/-! ### LRCCLR and LRCADD (R129, R130) -/

theorem exec_lrcadd_of_inRange {t : TSel} {ch : Word32} (s : State)
    (h : t.base ≤ ch.toNat ∧ ch.toNat < t.base + t.count) :
    exec (.lrcadd t ch) s = .next (State.respondOk
      { s with acc := s.acc ^^^ ((s.cfg.table t)[ch.toNat - t.base]'(by omega)).setWidth 7 } 0) :=
  exec_lrcadd_of_entry (encChar_of_inRange h)

/-- Settles O44: the ranges of the two tables, written out; a 7-bit codeword needs no extension. -/
theorem lrcCommandsFoldTheCodewords : Obligations.LrcCommandsFoldTheCodewords := by
  intro s ch
  refine ⟨exec_lrcclr s, fun ⟨hlow, hhigh⟩ => ?_, fun hout => ?_, fun ⟨hlow, hhigh⟩ => ?_, fun hout => ?_⟩
  · rw [← BitVec.setWidth_eq s.cfg.table7[ch.toNat - 0x20]]
    exact exec_lrcadd_of_inRange (t := .seven) s ⟨hlow, Nat.lt_succ_of_le hhigh⟩
  · exact exec_lrcadd_of_no_entry (encChar_eq_none.mpr (by simp only [TSel.base, TSel.count]; omega))
  · exact exec_lrcadd_of_inRange (t := .five) s ⟨hlow, Nat.lt_succ_of_le hhigh⟩
  · exact exec_lrcadd_of_no_entry (encChar_eq_none.mpr (by simp only [TSel.base, TSel.count]; omega))

/-! ### The commands, one per character (R133) -/

/-- The moves that present these commands, in order (R60). -/
def commandMoves (is : List Instr) : List HostMove :=
  is.map fun i => .command (encode i)

theorem commandMoves_append (is js : List Instr) : commandMoves (is ++ js) = commandMoves is ++ commandMoves js :=
  List.map_append

/-- LRCADD of every character folds the exclusive-or of their codewords into `ACC` and answers OK throughout (R130). -/
theorem run_lrcadds {u : TSel} {chars : List Word32} {s : State} {p : BitVec u.width} {rest : List HostMove} (k : Nat)
    (hp : codewordXor s.cfg u (chars.map BitVec.toNat) = some p)
    (hmoves : s.moves = commandMoves (chars.map (Instr.lrcadd u)) ++ rest) :
    Host.Core.run Sys2Proof.core (chars.length + k) s =
      Host.Core.run Sys2Proof.core k { s with
        acc := s.acc ^^^ p.setWidth 7, moves := rest,
        responses := s.responses ++ List.replicate chars.length ⟨.ok, 0⟩ } := by
  induction chars generalizing s p with
  | nil =>
    obtain rfl := Option.some.inj (codewordXor_nil s.cfg u ▸ hp)
    obtain rfl : s.moves = rest := hmoves
    simp
  | cons ch chars ih =>
    obtain ⟨x, q, hx, hq, rfl⟩ := codewordXor_cons.mp hp
    have hadd := exec_lrcadd_of_entry (s := { s with moves := commandMoves (chars.map (Instr.lrcadd u)) ++ rest }) hx
    have hfirst := run_command (chars.length + k) (i := .lrcadd u ch) rfl hmoves hadd
    rw [List.length_cons, Nat.add_right_comm]
    refine (hfirst.trans (ih hq rfl)).trans (congrArg _ ?_)
    simp [List.replicate_succ, BitVec.setWidth_xor, BitVec.xor_assoc]

/-- A codeword survives the seven bits of `ACC` (R25, R131). -/
theorem setWidth_seven_setWidth (t : TSel) (p : BitVec t.width) : (p.setWidth 7).setWidth t.width = p := by
  rw [BitVec.setWidth_setWidth_of_le _ (TSel.width_le_seven t), BitVec.setWidth_eq]

/-- The sequence without LRCCLR, from a clear accumulator. -/
theorem run_lrcadds_lrcget {u : TSel} {chars : List Word32} {s : State} {l : BitVec u.width} {rest : List HostMove}
    (hl : lrc s.cfg u (chars.map BitVec.toNat) = some l) (hacc : s.acc = 0)
    (hmoves : s.moves = commandMoves (chars.map (Instr.lrcadd u) ++ [Instr.lrcget u]) ++ rest) :
    ∃ t, Host.Core.run Sys2Proof.core (chars.length + 1) s = .next t ∧ t.moves = rest ∧
      t.responses = s.responses ++ List.replicate chars.length ⟨.ok, 0⟩ ++ [⟨.ok, l.setWidth 32⟩] := by
  obtain ⟨p, hp, rfl⟩ := lrc_eq_some.mp hl
  rw [commandMoves_append, List.append_assoc] at hmoves
  have hadds := run_lrcadds 1 hp hmoves
  refine ⟨_, hadds.trans (run_command 0 (i := .lrcget u) rfl rfl (exec_lrcget u _)), rfl, ?_⟩
  simp [hacc, setWidth_seven_setWidth]

/-- Settles O46: LRCCLR leaves a clear accumulator, from which the rest runs as it does without it. -/
theorem lrcCommandsComputeTheLrc : Obligations.LrcCommandsComputeTheLrc := by
  intro s u chars l rest hl
  refine ⟨fun hmoves => ?_, run_lrcadds_lrcget hl⟩
  have hclear := run_command (chars.length + 1) (i := .lrcclr) rfl hmoves (exec_lrcclr _)
  obtain ⟨t, hrun, htmoves, hresponses⟩ := run_lrcadds_lrcget (s := State.respondOk { s with
    acc := 0, moves := commandMoves (chars.map (Instr.lrcadd u) ++ [Instr.lrcget u]) ++ rest } 0) hl rfl rfl
  exact ⟨t, hclear.trans hrun, htmoves, by simp [hresponses, List.replicate_succ]⟩

end Sys2Proof.Machine
end

section
/-! SUPPORT. The statements about the encode and decode pipelines (43_track_pipeline.md): what TRIM finds, the appending
of one codeword and of a track, the loop that reads the codewords back, and the round trip through both. -/

namespace Sys2Proof.Machine

/-! ### TRIM (R156, R159) -/

theorem findIdx?_beq_of_first {a : Word32} {before after : List Word32} (h : a ∉ before) :
    (before ++ a :: after).findIdx? (· == a) = some before.length := by
  have hbefore : before.findIdx? (· == a) = none :=
    List.findIdx?_eq_none_iff.mpr fun x hx => beq_false_of_ne fun hxa => h (hxa ▸ hx)
  simp [List.findIdx?_append, hbefore, List.findIdx?_cons]

/-- The sentinels of a sequence split at its first `';'` and the first `'?'` after it. -/
theorem findSentinels_of_first {before mid : List Word32} (after : List Word32) (hstart : startSentinel ∉ before)
    (hend : endSentinel ∉ mid) :
    findSentinels (before ++ startSentinel :: mid ++ endSentinel :: after) =
      some (before.length, before.length + 1 + mid.length) := by
  have hrest : (before ++ startSentinel :: (mid ++ endSentinel :: after)).drop (before.length + 1) =
      mid ++ endSentinel :: after := by
    simp
  rw [List.append_assoc, List.cons_append, findSentinels, findIdx?_beq_of_first hstart]
  simp only [hrest, findIdx?_beq_of_first hend]

/-- Settles O55: the slice between the sentinels found is the `';'`, the text after it and the `'?'`, and neither
sentinel is `'~'`. -/
theorem trimTakesTheFirstSentinels : Obligations.TrimTakesTheFirstSentinels := by
  intro before mid after words hstart hend
  have hslice : ((before ++ startSentinel :: mid ++ endSentinel :: after).drop before.length).take
      (before.length + 1 + mid.length - before.length + 1) = startSentinel :: mid ++ [endSentinel] := by
    rw [List.append_assoc, List.drop_left, show before.length + 1 + mid.length - before.length + 1 =
      (startSentinel :: mid).length + 1 by rw [List.length_cons]; omega, List.take_length_add_append]
    rfl
  have hmark : (startSentinel :: mid ++ [endSentinel]).contains noEntryMark = true ↔ noEntryMark ∈ mid := by
    have hs : noEntryMark ≠ startSentinel := by decide
    have he : noEntryMark ≠ endSentinel := by decide
    simp [hs, he]
  simp only [trim, findSentinels_of_first after hstart hend, hslice, hmark]

/-- The sentinels found are a `';'` and a `'?'` after it. -/
theorem findSentinels_some {seq : List Word32} {b e : Nat} (h : findSentinels seq = some (b, e)) :
    b < e ∧ seq[b]? = some startSentinel ∧ seq[e]? = some endSentinel := by
  rw [findSentinels] at h
  split at h
  · cases h
  next i hi =>
    split at h
    · cases h
    next j hj =>
      obtain ⟨rfl, rfl⟩ := Prod.mk.inj (Option.some.inj h)
      obtain ⟨hib, hstart, -⟩ := List.findIdx?_eq_some_iff_getElem.mp hi
      obtain ⟨hjb, hend, -⟩ := List.findIdx?_eq_some_iff_getElem.mp hj
      rw [List.getElem_drop] at hend
      exact ⟨by omega, List.getElem?_eq_some_iff.mpr ⟨hib, eq_of_beq hstart⟩,
        List.getElem?_eq_some_iff.mpr ⟨_, eq_of_beq hend⟩⟩

theorem trim_of_unterminated {seq : List Word32} (words : List Word32)
    (h : ¬ ∃ b e : Nat, b < e ∧ seq[b]? = some startSentinel ∧ seq[e]? = some endSentinel) :
    trim seq words = if words.all (· == 0) then .noData else .corruptData := by
  have hnone : findSentinels seq = none :=
    Option.eq_none_iff_forall_ne_some.mpr fun ⟨b, e⟩ hbe => h ⟨b, e, findSentinels_some hbe⟩
  rw [trim, hnone]

/-! ### The validation pass (R150) -/

theorem issueOk_enc_of_entry {s : State} {u : TSel} {ch : Word32} {x : BitVec u.width}
    (h : encChar s.cfg u ch.toNat = some x) :
    issueOk (.enc u ch) s = .done (x.setWidth 32) (s.respondOk (x.setWidth 32)) :=
  issueOk_of_exec (decodingTheEncodingGivesTheCommand _ rfl) (exec_enc_of_entry h) rfl

theorem issueOk_enc_of_no_entry {s : State} {u : TSel} {ch : Word32} (h : encChar s.cfg u ch.toNat = none) :
    issueOk (.enc u ch) s = .stopped .invalidChar (s.raise .invalidChar) :=
  issueOk_stopped (decodingTheEncodingGivesTheCommand _ rfl) (exec_enc_of_no_entry h) rfl (by decide)

theorem validateChars_cons_of_entry {s : State} {u : TSel} {ch : Word32} {x : BitVec u.width} (chars : List Word32)
    (h : encChar s.cfg u ch.toNat = some x) :
    validateChars u (ch :: chars) s = validateChars u chars (s.respondOk (x.setWidth 32)) := by
  rw [validateChars, forEach_cons, issueOk_enc_of_entry h, HostRun.bind_done, HostRun.bind_done]

/-- When every character has an entry the pass completes, and only responses were given. -/
theorem validateChars_done {s : State} {u : TSel} {chars : List Word32}
    (h : ∀ ch ∈ chars, ∃ x, encChar s.cfg u ch.toNat = some x) :
    ∃ rs, validateChars u chars s = .done () { s with responses := rs } := by
  induction chars generalizing s with
  | nil => exact ⟨s.responses, rfl⟩
  | cons ch chars ih =>
    obtain ⟨⟨x, hx⟩, hrest⟩ := List.forall_mem_cons.mp h
    rw [validateChars_cons_of_entry chars hx]
    exact ih hrest

/-- At the first character with no entry the pass stops, and only responses were given. -/
theorem validateChars_stopped {s : State} {u : TSel} {chars : List Word32}
    (h : ∃ ch ∈ chars, encChar s.cfg u ch.toNat = none) :
    ∃ rs, validateChars u chars s = .stopped .invalidChar { s with responses := rs } := by
  induction chars generalizing s with
  | nil => simp at h
  | cons ch chars ih =>
    cases hch : encChar s.cfg u ch.toNat with
    | none =>
      refine ⟨s.responses ++ [⟨.invalidChar, 0⟩], ?_⟩
      rw [validateChars, forEach_cons, issueOk_enc_of_no_entry hch]
      rfl
    | some x =>
      rw [validateChars_cons_of_entry chars hch]
      refine ih (s := s.respondOk _) ?_
      simpa [hch] using h

/-- Settles O53: the validation pass stops, before anything else is issued. -/
theorem unmappableCharacterStopsEncoding : Obligations.UnmappableCharacterStopsEncoding := by
  intro s check u chars h
  obtain ⟨rs, hstop⟩ := validateChars_stopped h
  exact ⟨_, by rw [encodeTrack, hstop, HostRun.bind_stopped], rfl⟩

/-! ### One codeword appended (R93, R147, R148) -/

theorem widthOk_width (u : TSel) : widthOk u.width = true := by
  cases u <;> rfl

/-- What a WR of the codeword `x` at the cursor of `s` leaves in `t`, whatever the accumulator. -/
structure Appended (u : TSel) (x : BitVec u.width) (s t : State) : Prop where
  inv : t.Inv
  cfg : t.cfg = s.cfg
  len : t.len = max s.len (ceil8 (s.cursor + u.width))
  cursor : t.cursor = s.cursor + u.width
  bits : ∀ j, j < u.width → streamBit t (s.cursor + j) = x.getLsbD (u.width - 1 - j)
  kept : ∀ m, m < s.cursor ∨ s.cursor + u.width ≤ m → streamBit t m = streamBit s m

theorem issueOk_wr_codeword {s : State} {u : TSel} (x : BitVec u.width) (hs : s.Inv)
    (hfit : ceil8 (s.cursor + u.width) ≤ s.cfg.cap) :
    ∃ t, issueOk (.wr u.width (x.setWidth 32)) s = .done 0 t ∧ t.acc = s.acc ∧ Appended u x s t := by
  have ⟨hcursor, _, hwf, _⟩ := hs
  obtain ⟨hpos, h32⟩ := widthOk_iff.mp (widthOk_width u)
  obtain ⟨v, hwrite⟩ : ∃ v, memWrite s s.cursor u.width (lowBits u.width (x.setWidth 32)) = some v :=
    ⟨_, memWrite_lowBits _ hpos h32 hcursor hfit⟩
  have he := exec_wr_of_memWrite hwrite
  have hresponses : v.responses = s.responses := by rw [memWrite_fields hwrite]
  refine ⟨_, issueOk_of_exec (decodingTheEncodingGivesTheCommand _ (widthOk_width u)) he
    (by rw [State.respondOk_responses, hresponses]), (memWrite_acc hwrite :), exec_inv hs he, (memWrite_cfg hwrite :),
    (memWrite_len hwrite :), rfl, fun j hj => ?_, fun m hm => (memWrite_streamBit_of_not_target hwf hwrite hm :)⟩
  refine (memWrite_lowBits_target hwf hwrite hj :).trans ?_
  rw [BitVec.getLsbD_setWidth, decide_eq_true (by omega), Bool.true_and]

theorem issueOk_lrcadd_of_entry {s : State} {u : TSel} {ch : Word32} {x : BitVec u.width}
    (h : encChar s.cfg u ch.toNat = some x) :
    issueOk (.lrcadd u ch) s = .done 0 (State.respondOk { s with acc := s.acc ^^^ x.setWidth 7 } 0) :=
  issueOk_of_exec (decodingTheEncodingGivesTheCommand _ rfl) (exec_lrcadd_of_entry h) rfl

/-- PUTC appends the character's codeword and folds it into `ACC` (R147). -/
theorem putc_appends {s : State} {u : TSel} {ch : Word32} {x : BitVec u.width} (hs : s.Inv)
    (hx : encChar s.cfg u ch.toNat = some x) (hfit : ceil8 (s.cursor + u.width) ≤ s.cfg.cap) :
    ∃ t, putc u ch s = .done () t ∧ t.acc = s.acc ^^^ x.setWidth 7 ∧ Appended u x s t := by
  obtain ⟨t, hwr, hacc, ht⟩ := issueOk_wr_codeword (s := s.respondOk (x.setWidth 32)) x hs hfit
  have hadd := issueOk_lrcadd_of_entry (s := t) (ht.cfg.symm ▸ hx)
  refine ⟨State.respondOk { t with acc := t.acc ^^^ x.setWidth 7 } 0, ?_, congrArg (· ^^^ x.setWidth 7) hacc,
    ht.inv, ht.cfg, ht.len, ht.cursor, ht.bits, ht.kept⟩
  rw [putc, issueOk_enc_of_entry hx, HostRun.bind_done, hwr, HostRun.bind_done, hadd, HostRun.bind_done]

/-- PUTLRC appends the LRC word of `ACC` and keeps `ACC` (R148). -/
theorem putlrc_appends {s : State} (u : TSel) (hs : s.Inv) (hfit : ceil8 (s.cursor + u.width) ≤ s.cfg.cap) :
    ∃ t, putlrc u s = .done () t ∧ t.acc = s.acc ∧ Appended u (lrcWord u (s.acc.setWidth u.width)) s t := by
  have hget := issueOk_of_exec (decodingTheEncodingGivesTheCommand _ rfl) (exec_lrcget u s) rfl
  obtain ⟨t, hwr, hacc, ht⟩ := issueOk_wr_codeword (s := s.respondOk _) (lrcWord u (s.acc.setWidth u.width)) hs hfit
  refine ⟨t, ?_, hacc, ht.inv, ht.cfg, ht.len, ht.cursor, ht.bits, ht.kept⟩
  rw [putlrc, hget, HostRun.bind_done, hwr, HostRun.bind_done]

/-- Settles O51. -/
theorem putcAppendsTheCodeword : Obligations.PutcAppendsTheCodeword := by
  intro s u ch x hs hx hfit
  obtain ⟨t, hput, hacc, ht⟩ := putc_appends hs hx hfit
  exact ⟨t, hput, ht.cursor, hacc, ht.bits, fun m hm => ht.kept m (.inl hm)⟩

/-! ### Codewords packed from offset 0 (R77) -/

/-- The stream begins with these codewords, each most significant bit first. -/
def StreamStartsWith (s : State) (u : TSel) (ws : List (BitVec u.width)) : Prop :=
  ∀ (k : Nat) (x : BitVec u.width), ws[k]? = some x →
    ∀ j, j < u.width → streamBit s (u.width * k + j) = x.getLsbD (u.width - 1 - j)

theorem codeword_bit_lt {w k n j : Nat} (hk : k < n) (hj : j < w) : w * k + j < w * n :=
  calc w * k + j < w * (k + 1) := Nat.add_lt_add_left hj _
    _ ≤ w * n := Nat.mul_le_mul_left w hk

namespace StreamStartsWith

variable {s t : State} {u : TSel} {ws : List (BitVec u.width)} {x : BitVec u.width}

theorem congr (h : StreamStartsWith s u ws) (ht : ∀ m, m < u.width * ws.length → streamBit t m = streamBit s m) :
    StreamStartsWith t u ws := by
  intro k y hk j hj
  obtain ⟨hlt, -⟩ := List.getElem?_eq_some_iff.mp hk
  rw [ht _ (codeword_bit_lt hlt hj), h k y hk j hj]

theorem concat (h : StreamStartsWith s u ws)
    (hx : ∀ j, j < u.width → streamBit s (u.width * ws.length + j) = x.getLsbD (u.width - 1 - j)) :
    StreamStartsWith s u (ws ++ [x]) := by
  intro k y hk
  rcases Nat.lt_or_ge k ws.length with hlt | hge
  · exact h k y (List.getElem?_append_left hlt ▸ hk)
  · rw [List.getElem?_append_right hge, List.getElem?_singleton] at hk
    obtain ⟨hzero, hxy⟩ := Option.ite_none_right_eq_some.mp hk
    obtain rfl := Option.some.inj hxy
    obtain rfl : k = ws.length := by omega
    exact hx

theorem append_left {ws' : List (BitVec u.width)} (h : StreamStartsWith s u (ws ++ ws')) : StreamStartsWith s u ws := by
  intro k y hk
  obtain ⟨hlt, -⟩ := List.getElem?_eq_some_iff.mp hk
  exact h k y ((List.getElem?_append_left hlt).trans hk)

end StreamStartsWith

/-- The buffer holds these codewords and zero bits to the end of the last byte, with the cursor after the last
codeword (R77, R151). -/
structure Packed (u : TSel) (ws : List (BitVec u.width)) (s : State) : Prop where
  inv : s.Inv
  len : s.len = ceil8 (u.width * ws.length)
  cursor : s.cursor = u.width * ws.length
  starts : StreamStartsWith s u ws
  padding : ∀ m, u.width * ws.length ≤ m → streamBit s m = false

theorem Packed.append {u : TSel} {ws : List (BitVec u.width)} {x : BitVec u.width} {s t : State} (h : Packed u ws s)
    (ht : Appended u x s t) : Packed u (ws ++ [x]) t := by
  have hwidth : u.width * (ws ++ [x]).length = u.width * ws.length + u.width := by
    rw [List.length_append, List.length_singleton, Nat.mul_succ]
  obtain ⟨-, hlen, hcursor, hstarts, hpadding⟩ := h
  obtain ⟨hinv, -, htlen, htcursor, hbits, hkept⟩ := ht
  rw [hcursor] at htlen htcursor hbits hkept
  refine ⟨hinv, ?_, htcursor.trans hwidth.symm,
    (hstarts.congr fun m hm => hkept m (.inl hm)).concat hbits, fun m hm => ?_⟩
  · rw [htlen, hwidth, hlen, ceil8, ceil8]
    omega
  · rw [hkept m (.inr (hwidth ▸ hm)), hpadding m (by omega)]

theorem ceil8_mono {j k : Nat} (h : j ≤ k) : ceil8 j ≤ ceil8 k :=
  Nat.div_le_div_right (Nat.add_le_add_right h 7)

/-- Characters that all have entries have as many codewords. -/
theorem codewords_length {c : Config} {u : TSel} {chars : List Word32} {cs : List (BitVec u.width)}
    (h : chars.map (fun ch => encChar c u ch.toNat) = cs.map some) : cs.length = chars.length := by
  simpa using (congrArg List.length h).symm

/-- PUTC of a sequence of characters appends their codewords, when all of them fit (R147, R150). -/
theorem forEach_putc_packed {s : State} {u : TSel} {chars : List Word32} {ws cs : List (BitVec u.width)}
    (hcs : chars.map (fun ch => encChar s.cfg u ch.toNat) = cs.map some) (hs : Packed u ws s)
    (hfit : ceil8 (u.width * (ws.length + chars.length)) ≤ s.cfg.cap) :
    ∃ t, forEach (putc u) chars s = .done () t ∧ t.cfg = s.cfg ∧
      t.acc = s.acc ^^^ (cs.foldr (fun x p => x ^^^ p) 0).setWidth 7 ∧ Packed u (ws ++ cs) t := by
  induction chars generalizing s ws cs with
  | nil =>
    obtain rfl := List.map_eq_nil_iff.mp hcs.symm
    exact ⟨s, forEach_nil _ s, rfl, by simp, (List.append_nil ws).symm ▸ hs⟩
  | cons ch chars ih =>
    obtain ⟨x, cs, rfl, hx, hcs⟩ := List.map_eq_cons_iff.mp hcs.symm
    have hroom : ceil8 (s.cursor + u.width) ≤ s.cfg.cap := by
      rw [hs.cursor, ← Nat.mul_succ]
      exact (ceil8_mono (Nat.mul_le_mul_left _ (by rw [List.length_cons]; omega))).trans hfit
    obtain ⟨t, hput, hacc, ht⟩ := putc_appends hs.inv hx.symm hroom
    obtain ⟨v, hrest, hcfg, hvacc, hv⟩ := ih (s := t) (by rw [ht.cfg]; exact hcs.symm) (hs.append ht)
      (by rw [ht.cfg, List.length_append, List.length_singleton, Nat.add_assoc, Nat.add_comm 1]; exact hfit)
    refine ⟨v, by rw [forEach_cons, hput, HostRun.bind_done, hrest], hcfg.trans ht.cfg, ?_, ?_⟩
    · rw [hvacc, hacc, List.foldr_cons, BitVec.setWidth_xor, BitVec.xor_assoc]
    · rwa [List.append_assoc, List.singleton_append] at hv

/-! ### ENCODE_TRACK (R150, R151) -/

theorem issueOk_lrcclr (s : State) : issueOk .lrcclr s = .done 0 (State.respondOk { s with acc := 0 } 0) :=
  issueOk_of_exec (decodingTheEncodingGivesTheCommand _ rfl) (exec_lrcclr s) rfl

theorem packed_nil {s : State} (u : TSel) (hcells : s.cells = []) (hlen : s.len = 0) (hcursor : s.cursor = 0) :
    Packed u [] s where
  inv := by simp [State.Inv, hcells, hlen, hcursor, Memory.wf]
  len := hlen.trans (by simp [ceil8])
  cursor := hcursor
  starts := by simp [StreamStartsWith]
  padding m _ := streamBit_beyond (l := 0) (by simp [hcells]) (Nat.zero_le m)

/-- Phase 2 packs the codewords and the LRC word, whatever the buffer held before (R150, R151). -/
theorem buildTrack_packed {s : State} {u : TSel} {chars : List Word32} {cs : List (BitVec u.width)}
    {l : BitVec u.width} (hcs : chars.map (fun ch => encChar s.cfg u ch.toNat) = cs.map some)
    (hl : lrc s.cfg u (chars.map BitVec.toNat) = some l)
    (hfit : ceil8 (u.width * (chars.length + 1)) ≤ s.cfg.cap) :
    ∃ t, buildTrack u chars s = .done () t ∧ t.cfg = s.cfg ∧
      t.acc = (cs.foldr (fun x p => x ^^^ p) 0).setWidth 7 ∧ Packed u (cs ++ [l]) t := by
  obtain ⟨p, hp, rfl⟩ := lrc_eq_some.mp hl
  obtain rfl := Option.some.inj ((codewordXor_of_codewords (List.map_map.trans hcs)).symm.trans hp)
  have hroom : ceil8 (u.width * (0 + chars.length)) ≤ s.cfg.cap :=
    (ceil8_mono (Nat.mul_le_mul_left _ (by omega))).trans hfit
  obtain ⟨t, hputs, hcfg, hacc, ht⟩ := forEach_putc_packed (s := State.respondOk
    { State.respondOk { s with cells := [], len := 0, cursor := 0 } 0 with acc := 0 } 0)
    hcs (packed_nil u rfl rfl rfl) hroom
  have hacc := hacc.trans BitVec.zero_xor
  have hlast : ceil8 (t.cursor + u.width) ≤ t.cfg.cap := by
    rw [ht.cursor, List.nil_append, codewords_length hcs, ← Nat.mul_succ, hcfg]
    exact hfit
  obtain ⟨v, hput, hvacc, hv⟩ := putlrc_appends u ht.inv hlast
  rw [hacc, setWidth_seven_setWidth] at hv
  refine ⟨v, ?_, hv.cfg.trans hcfg, hvacc.trans hacc, ht.append hv⟩
  rw [buildTrack, issueOk_clr, HostRun.bind_done, issueOk_lrcclr, HostRun.bind_done, hputs, HostRun.bind_done, hput]

/-- ENCODE_TRACK packs the codewords and the LRC word, with or without the host's check (R150, R151). -/
theorem encodeTrack_packed {s : State} (check : Bool) {u : TSel} {chars : List Word32} {cs : List (BitVec u.width)}
    {l : BitVec u.width} (hcs : chars.map (fun ch => encChar s.cfg u ch.toNat) = cs.map some)
    (hl : lrc s.cfg u (chars.map BitVec.toNat) = some l)
    (hfit : ceil8 (u.width * (chars.length + 1)) ≤ s.cfg.cap) :
    ∃ t, encodeTrack check u chars s = .done () t ∧ t.cfg = s.cfg ∧
      t.acc = (cs.foldr (fun x p => x ^^^ p) 0).setWidth 7 ∧ Packed u (cs ++ [l]) t := by
  have hentries : ∀ ch ∈ chars, ∃ x, encChar s.cfg u ch.toNat = some x := fun ch hch => by
    obtain ⟨x, -, hx⟩ := List.mem_map.mp (hcs ▸ List.mem_map_of_mem hch)
    exact ⟨x, hx.symm⟩
  obtain ⟨rs, hvalid⟩ := validateChars_done hentries
  obtain ⟨t, hbuild, ht⟩ := buildTrack_packed (s := { s with responses := rs }) hcs hl hfit
  exact ⟨t, by rw [encodeTrack, hvalid, HostRun.bind_done, if_neg fun h => Nat.not_lt.mpr hfit h.2, hbuild], ht⟩

/-- Settles O52: `Packed`, clause by clause. -/
theorem encodedTrackIsThePackedStream : Obligations.EncodedTrackIsThePackedStream := by
  intro s check u chars cs l hcs hl hfit
  have hlength := codewords_length hcs
  obtain ⟨t, hrun, -, hacc, ht⟩ := encodeTrack_packed check hcs hl hfit
  have hwords : (cs ++ [l]).length = chars.length + 1 := by rw [List.length_append, List.length_singleton, hlength]
  refine ⟨t, hrun, hwords ▸ ht.len, hwords ▸ ht.cursor, hacc, ht.starts.append_left, fun j hj => ?_,
    fun m hm _ => ht.padding m (hwords.symm ▸ hm)⟩
  exact ht.starts chars.length l (by rw [← hlength, List.getElem?_concat_length]) j hj

/-! ### The whole codewords of the buffer (R154) -/

/-- A stream bit is a bit of the byte of `BUF` that holds it (R41). -/
theorem streamBit_of_byte {s : State} {k : Nat} {b : Byte} (h : s.bufBytes[k / 8]? = some b) :
    streamBit s k = b.getLsbD (7 - k % 8) := by
  obtain ⟨hlt, -⟩ := List.getElem?_eq_some_iff.mp h
  rw [bufBytes_getElem? (bufBytes_length s ▸ hlt)] at h
  rw [streamBit, Option.some.inj h]

theorem streamBit_eq_of_bufBytes {s t : State} (h : t.bufBytes = s.bufBytes) {k : Nat} (hk : k < 8 * s.len) :
    streamBit t k = streamBit s k := by
  have hbyte : s.bufBytes[k / 8]? = some (s.cells.read (k / 8)) := bufBytes_getElem? (by omega)
  rw [streamBit_of_byte hbyte, streamBit_of_byte (h ▸ hbyte)]

/-- The `i`-th codeword of the stream. -/
def codewordAt (s : State) (u : TSel) (i : Nat) : BitVec u.width :=
  BitVec.ofNat u.width (streamValue s (u.width * i) u.width)

/-- The codewords of the stream that lie in the buffer as a whole, in order (R154). -/
def wholeCodewords (s : State) (u : TSel) : List (BitVec u.width) :=
  (List.range (8 * s.len / u.width)).map (codewordAt s u)

/-- What GETC answers for a codeword: its word and its character (R149). -/
def decodedCodeword (c : Config) (u : TSel) (x : BitVec u.width) : Word32 × Word32 :=
  (x.setWidth 32, BitVec.ofNat 32 (decWord c u x.toNat))

theorem wholeCodewords_length (s : State) (u : TSel) : (wholeCodewords s u).length = 8 * s.len / u.width := by
  simp [wholeCodewords]

theorem wholeCodewords_getElem {s : State} {u : TSel} {i : Nat} (hi : i < (wholeCodewords s u).length) :
    (wholeCodewords s u)[i] = codewordAt s u i := by
  simp [wholeCodewords]

theorem toNat_codewordAt (s : State) (u : TSel) (i : Nat) :
    (codewordAt s u i).toNat = streamValue s (u.width * i) u.width :=
  (BitVec.toNat_ofNat _ _).trans (Nat.mod_eq_of_lt (streamValue_lt s _ _))

theorem toNat_setWidth_codeword {u : TSel} (x : BitVec u.width) : (x.setWidth 32).toNat = x.toNat :=
  BitVec.toNat_setWidth_of_le (widthOk_iff.mp (widthOk_width u)).2

/-- MemRead of a whole codeword is that codeword, zero extended (R43). -/
theorem memRead_codeword {s : State} {u : TSel} {i : Nat} (hi : i < 8 * s.len / u.width) :
    memRead s (u.width * i) u.width = some ((codewordAt s u i).setWidth 32) := by
  obtain ⟨hpos, h32⟩ := widthOk_iff.mp (widthOk_width u)
  have hend : u.width * i + u.width ≤ 8 * s.len := by
    rw [← Nat.mul_succ, Nat.mul_comm]
    exact (Nat.le_div_iff_mul_le hpos).mp hi
  exact memRead_eq_some.mpr ⟨⟨hpos, h32, hend⟩, (toNat_setWidth_codeword _).trans (toNat_codewordAt s u i)⟩

theorem codewordAt_eq {s : State} {u : TSel} {i : Nat} {x : BitVec u.width}
    (h : ∀ j, j < u.width → streamBit s (u.width * i + j) = x.getLsbD (u.width - 1 - j)) :
    codewordAt s u i = x := by
  refine BitVec.eq_of_getLsbD_eq fun j hj => ?_
  rw [BitVec.getLsbD, toNat_codewordAt, streamValue_testBit, decide_eq_true hj, Bool.true_and, h _ (by omega),
    show u.width - 1 - (u.width - 1 - j) = j by omega]

/-- A stream that starts with as many codewords as it holds as a whole holds those. -/
theorem wholeCodewords_eq {s : State} {u : TSel} {ws : List (BitVec u.width)} (h : StreamStartsWith s u ws)
    (hlength : ws.length = 8 * s.len / u.width) : wholeCodewords s u = ws := by
  refine List.ext_getElem (by rw [wholeCodewords_length, hlength]) fun k _ hk => ?_
  rw [wholeCodewords_getElem]
  exact codewordAt_eq (h k _ (List.getElem?_eq_getElem hk))

/-! ### GETC until `EOD` (R149, R154) -/

theorem issueOk_dec (s : State) (u : TSel) (x : BitVec u.width) :
    issueOk (.dec u (x.setWidth 32)) s =
      .done (decodedCodeword s.cfg u x).2 (s.respondOk (decodedCodeword s.cfg u x).2) := by
  rw [decodedCodeword, ← toNat_setWidth_codeword x]
  exact issueOk_of_exec (decodingTheEncodingGivesTheCommand _ rfl) (exec_dec u _ s) rfl

theorem getc_of_memRead {s : State} {u : TSel} {x : BitVec u.width}
    (h : memRead s s.cursor u.width = some (x.setWidth 32)) :
    ∃ t, getc u s = .done (decodedCodeword s.cfg u x) t ∧ t.cells = s.cells ∧ t.len = s.len ∧ t.cfg = s.cfg ∧
      t.cursor = s.cursor + u.width := by
  have hread := issueOk_of_exec (decodingTheEncodingGivesTheCommand (.rd u.width) (widthOk_width u))
    (exec_rd_of_memRead h) rfl
  have hdec := issueOk_dec (State.respondOk { s with cursor := s.cursor + u.width } (x.setWidth 32)) u x
  refine ⟨State.respondOk (State.respondOk { s with cursor := s.cursor + u.width } (x.setWidth 32))
    (decodedCodeword s.cfg u x).2, ?_, rfl, rfl, rfl, rfl⟩
  rw [getc, hread, HostRun.bind_done, hdec, HostRun.bind_done]
  rfl

/-- Between two GETC of a decoding of the buffer of `s₀`: the buffer and the tables are unchanged, and the answers to
come are those of its whole codewords from the cursor on. -/
structure Reading (u : TSel) (s₀ : State) (answers : List (Word32 × Word32)) (s : State) : Prop where
  cells : s.cells = s₀.cells
  len : s.len = s₀.len
  cfg : s.cfg = s₀.cfg
  rest : ∃ i, i ≤ (wholeCodewords s₀ u).length ∧ s.cursor = u.width * i ∧
    answers = ((wholeCodewords s₀ u).drop i).map (decodedCodeword s₀.cfg u)

theorem Reading.start {u : TSel} {s : State} (hcursor : s.cursor = 0) :
    Reading u s ((wholeCodewords s u).map (decodedCodeword s.cfg u)) s :=
  ⟨rfl, rfl, rfl, 0, Nat.zero_le _, hcursor, rfl⟩

theorem wholeCodewords_drop {s : State} {u : TSel} {i : Nat} (hi : i < (wholeCodewords s u).length) :
    (wholeCodewords s u).drop i = codewordAt s u i :: (wholeCodewords s u).drop (i + 1) := by
  rw [List.drop_eq_getElem_cons hi, wholeCodewords_getElem]

theorem Reading.round {u : TSel} {s₀ s : State} {p : Word32 × Word32} {ps : List (Word32 × Word32)}
    (h : Reading u s₀ (p :: ps) s) : ∃ t, getc u s = .done p t ∧ Reading u s₀ ps t := by
  obtain ⟨hcells, hlen, hcfg, i, hi, hcursor, hanswers⟩ := h
  rcases hi.lt_or_eq with hi | rfl
  · rw [wholeCodewords_drop hi, List.map_cons, List.cons.injEq] at hanswers
    obtain ⟨rfl, rfl⟩ := hanswers
    have hread : memRead s s.cursor u.width = some ((codewordAt s₀ u i).setWidth 32) := by
      rw [hcursor, memRead_congr hcells hlen, memRead_codeword (wholeCodewords_length s₀ u ▸ hi)]
    obtain ⟨t, hget, htcells, htlen, htcfg, htcursor⟩ := getc_of_memRead hread
    exact ⟨t, hcfg ▸ hget, htcells.trans hcells, htlen.trans hlen, htcfg.trans hcfg, i + 1, hi,
      by rw [htcursor, hcursor, Nat.mul_succ], rfl⟩
  · rw [List.drop_length] at hanswers
    exact absurd hanswers (List.cons_ne_nil p ps)

theorem Reading.eod {u : TSel} {s₀ s : State} (h : Reading u s₀ [] s) :
    ∃ t, getc u s = .stopped .eod t ∧ t.cells = s₀.cells ∧ t.len = s₀.len ∧ t.cfg = s₀.cfg ∧
      t.cursor = u.width * (8 * s₀.len / u.width) := by
  obtain ⟨hcells, hlen, hcfg, i, hi, hcursor, hanswers⟩ := h
  rcases hi.lt_or_eq with hi | rfl
  · rw [wholeCodewords_drop hi, List.map_cons] at hanswers
    exact absurd hanswers.symm (List.cons_ne_nil _ _)
  · rw [wholeCodewords_length] at hcursor
    have hremain : 8 * s.len < s.cursor + u.width := by
      rw [hcursor, ← Nat.mul_succ, hlen]
      exact Nat.lt_mul_div_succ _ (TSel.width_pos u)
    have hstop := issueOk_stopped (decodingTheEncodingGivesTheCommand (.rd u.width) (widthOk_width u))
      (exec_rd_of_eod hremain) rfl (by decide)
    exact ⟨s.raise .eod, by rw [getc, hstop, HostRun.bind_stopped], hcells, hlen, hcfg, hcursor⟩

/-! ### DECODE_TRACK (R154) -/

theorem bufBytes_congr {s t : State} (hcells : t.cells = s.cells) (hlen : t.len = s.len) : t.bufBytes = s.bufBytes := by
  rw [State.bufBytes, State.bufBytes, hcells, hlen]

theorem wholeCodewords_congr {s t : State} (hcells : t.cells = s.cells) (hlen : t.len = s.len) (u : TSel) :
    wholeCodewords t u = wholeCodewords s u := by
  have hat : codewordAt t u = codewordAt s u := funext fun i => by
    rw [codewordAt, codewordAt, streamValue_congr (s := t) (t := s) fun j _ => by rw [streamBit, streamBit, hcells]]
  rw [wholeCodewords, wholeCodewords, hat, hlen]

/-- DECODE_TRACK answers the whole codewords of the buffer it leaves, which holds the bytes (R154). -/
theorem decodeTrack_done {s : State} (u : TSel) {bytes : List Byte} (hcap : s.cfg.CapOk)
    (hfit : bytes.length ≤ s.cfg.cap) :
    ∃ t, decodeTrack u bytes s = .done ((wholeCodewords t u).map (decodedCodeword s.cfg u)) t ∧ t.bufBytes = bytes ∧
      t.len = bytes.length ∧ t.cursor = u.width * (8 * bytes.length / u.width) := by
  obtain ⟨s₁, hload, hbytes, hlen, hcursor, -, hcfg, -⟩ := loadingLeavesTheBytes s bytes hcap hfit
  have hbound : ((wholeCodewords s₁ u).map (decodedCodeword s₁.cfg u)).length < 8 * s₁.len + 1 := by
    rw [List.length_map, wholeCodewords_length]
    exact Nat.lt_succ_of_le (Nat.div_le_self _ _)
  obtain ⟨t, hloop, htcells, htlen, -, htcursor⟩ :=
    untilEod_of_invariant (Reading u s₁) _ (fun _ _ _ => Reading.round)
      (fun _ => Reading.eod) _ _ _ (Reading.start hcursor) hbound
  refine ⟨t, ?_, (bufBytes_congr htcells htlen).trans hbytes, htlen.trans hlen, hlen ▸ htcursor⟩
  rw [decodeTrack, hload, HostRun.bind_done, readBound, hloop, wholeCodewords_congr htcells htlen, hcfg]

/-- Settles O54. -/
theorem decodedTrackIsEveryWholeCodeword : Obligations.DecodedTrackIsEveryWholeCodeword := by
  intro s u bytes hcap hfit
  obtain ⟨t, hrun, hbytes, hlen, hcursor⟩ := decodeTrack_done u hcap hfit
  have hcount : (wholeCodewords t u).length = 8 * bytes.length / u.width := by rw [wholeCodewords_length, hlen]
  refine ⟨_, t, hrun, (List.length_map _).trans hcount, hcursor, hbytes, fun i p hp => ?_⟩
  rw [List.getElem?_map] at hp
  obtain ⟨x, hx, rfl⟩ := Option.map_eq_some_iff.mp hp
  obtain ⟨hi, rfl⟩ := List.getElem?_eq_some_iff.mp hx
  rw [wholeCodewords_getElem]
  refine ⟨memRead_codeword (wholeCodewords_length t u ▸ hi), ?_⟩
  simp only [decodedCodeword, toNat_ofNat_decWord, toNat_setWidth_codeword]

/-- DECODE_TRACK of bytes whose stream starts with as many codewords as they hold as a whole answers those. -/
theorem decodeTrack_of_startsWith {s e : State} {u : TSel} {ws : List (BitVec u.width)} (hcap : s.cfg.CapOk)
    (hfit : e.len ≤ s.cfg.cap) (h : StreamStartsWith e u ws) (hlength : ws.length = 8 * e.len / u.width) :
    ∃ t, decodeTrack u e.bufBytes s = .done (ws.map (decodedCodeword s.cfg u)) t := by
  obtain ⟨t, hrun, hbytes, hlen, -⟩ := decodeTrack_done u hcap (bufBytes_length e ▸ hfit)
  rw [bufBytes_length] at hlen
  have hin : u.width * ws.length ≤ 8 * e.len := hlength ▸ Nat.mul_div_le _ _
  have hstarts : StreamStartsWith t u ws :=
    h.congr fun m hm => streamBit_eq_of_bufBytes hbytes (hm.trans_le hin)
  exact ⟨t, by rw [hrun, wholeCodewords_eq hstarts (by rw [hlength, hlen])]⟩

/-! ### The codewords as characters (R113, R159) -/

theorem decodedCodeword_of_encChar {c : Config} {u : TSel} {ch : Word32} {x : BitVec u.width} (hwf : c.TableWF u)
    (h : encChar c u ch.toNat = some x) : decodedCodeword c u x = (x.setWidth 32, ch) := by
  rw [decodedCodeword, decWord_of_encChar hwf h, BitVec.ofNat_toNat, BitVec.setWidth_eq]

theorem decodedCodeword_of_even {c : Config} {u : TSel} {x : BitVec u.width} (hwf : c.TableWF u)
    (h : parity x = false) : decodedCodeword c u x = (x.setWidth 32, noEntryMark) := by
  rw [decodedCodeword, (decWord_toNat_eq_noEntryChar_iff hwf x).mpr h]
  rfl

/-- The buffer of `m` zero bytes, in a block configured as `s` (R159). -/
def State.zeroBuffer (s : State) (m : Nat) : State :=
  { s with cells := [], len := m }

theorem zeroBuffer_bufBytes (s : State) (m : Nat) : (s.zeroBuffer m).bufBytes = List.replicate m 0 := by
  rw [List.eq_replicate_iff, bufBytes_length]
  refine ⟨rfl, fun b hb => ?_⟩
  obtain ⟨i, -, rfl⟩ := List.mem_map.mp hb
  rfl

theorem zeroBuffer_startsWith (s : State) (u : TSel) (m n : Nat) :
    StreamStartsWith (s.zeroBuffer m) u (List.replicate n 0) := by
  intro k x hk j _
  obtain ⟨-, rfl⟩ := List.mem_replicate.mp (List.mem_of_getElem? hk)
  rw [streamBit_beyond (s := s.zeroBuffer m) (l := 0) (by simp [State.zeroBuffer]) (Nat.zero_le _)]
  exact BitVec.getLsbD_zero.symm

/-- Settles O56: the zero word is even, so it decodes to `'~'`, and a sequence of `'~'`s has no `';'`; the second half
is `trim_of_unterminated`. -/
theorem zeroBufferIsNoDataAndUnterminatedIsCorrupt : Obligations.ZeroBufferIsNoDataAndUnterminatedIsCorrupt := by
  refine ⟨fun s u m hcap hwf hfit => ?_, fun seq words hopen ⟨v, hv, hne⟩ => ?_⟩
  · obtain ⟨t, hrun⟩ := decodeTrack_of_startsWith (s := s) (e := s.zeroBuffer m) hcap hfit
      (zeroBuffer_startsWith s u m (8 * m / u.width)) List.length_replicate
    rw [zeroBuffer_bufBytes, List.map_replicate, decodedCodeword_of_even hwf (parity_zero _)] at hrun
    refine ⟨_, t, hrun, congrArg (fun v => List.replicate _ (v, _)) (BitVec.setWidth_zero _ _), ?_⟩
    rw [trim_of_unterminated, if_pos (by simp)]
    rintro ⟨b, e, -, hstart, -⟩
    have hmem := List.mem_of_getElem? hstart
    rw [List.map_replicate] at hmem
    exact absurd (List.eq_of_mem_replicate hmem) (by decide : startSentinel ≠ noEntryMark)
  · rw [trim_of_unterminated words hopen, if_neg fun hall => hne (eq_of_beq (List.all_eq_true.mp hall v hv))]

/-! ### Host sequences and the configuration (R8, R30) -/

/-- However the sequence ends, the block is configured with `c`. -/
def HostRun.EndsUnder {α : Type} (c : Config) : HostRun α → Prop
  | .done _ t => t.cfg = c
  | .stopped _ t => t.cfg = c
  | .broken => True

theorem HostRun.EndsUnder.bind {α β : Type} {c : Config} {x : HostRun α} {f : α → State → HostRun β}
    (hx : x.EndsUnder c) (hf : ∀ a t, t.cfg = c → (f a t).EndsUnder c) : (x.bind f).EndsUnder c := by
  cases x with
  | done a t => exact hf a t hx
  | stopped st t => exact hx
  | broken => trivial

theorem issue_endsUnder (i : Instr) (s : State) : (issue i s).EndsUnder s.cfg := by
  rw [issue]
  split
  next t hstep =>
    have hcfg : t.cfg = s.cfg := (noStepWritesTheConfiguration _ t hstep :)
    split
    · exact hcfg
    · trivial
  · trivial
  · trivial

theorem issueOk_endsUnder (i : Instr) (s : State) : (issueOk i s).EndsUnder s.cfg := by
  refine (issue_endsUnder i s).bind fun r t ht => ?_
  split
  · exact ht
  · exact ht

theorem untilEod_endsUnder {α : Type} {f : State → HostRun α} (hf : ∀ s, (f s).EndsUnder s.cfg) (k : Nat)
    (s : State) : (untilEod f k s).EndsUnder s.cfg := by
  induction k generalizing s with
  | zero => trivial
  | succ k ih =>
    have hround := hf s
    rw [untilEod]
    split
    next a t hdone =>
      have ht : t.cfg = s.cfg := by rwa [hdone] at hround
      exact HostRun.EndsUnder.bind (ht ▸ ih t) fun _ _ hv => hv
    next t hstop => rwa [hstop] at hround
    next st t _ hstop => rwa [hstop] at hround
    · trivial

theorem unloadBytes_endsUnder (s : State) : (unloadBytes s).EndsUnder s.cfg :=
  (issueOk_endsUnder _ s).bind fun _ t ht =>
    HostRun.EndsUnder.bind (ht ▸ untilEod_endsUnder (issueOk_endsUnder (.rd 8)) (readBound t) t) fun _ _ hv => hv

/-! ### The round trip (R158) -/

/-- ENCODE_TRACK answers the bytes of the packed codewords and LRC word, under the same configuration (R150, R151). -/
theorem encodeTrackBytes_done {s : State} (check : Bool) {u : TSel} {chars : List Word32} {cs : List (BitVec u.width)}
    {l : BitVec u.width} (hcap : s.cfg.CapOk) (hcs : chars.map (fun ch => encChar s.cfg u ch.toNat) = cs.map some)
    (hl : lrc s.cfg u (chars.map BitVec.toNat) = some l)
    (hfit : ceil8 (u.width * (chars.length + 1)) ≤ s.cfg.cap) :
    ∃ e t, encodeTrackBytes check u chars s = .done e.bufBytes t ∧ t.cfg = s.cfg ∧ Packed u (cs ++ [l]) e := by
  obtain ⟨e, hrun, hcfg, -, he⟩ := encodeTrack_packed check hcs hl hfit
  obtain ⟨t, hunload, -⟩ := unloadingAnswersTheBytes e he.inv (hcfg.symm ▸ hcap)
  have htcfg : t.cfg = e.cfg := by
    have hends := unloadBytes_endsUnder e
    rwa [hunload] at hends
  exact ⟨e, t, by rw [encodeTrackBytes, hrun, HostRun.bind_done, hunload], htcfg.trans hcfg, he⟩

/-- A sequence in which every character has an entry has its codewords and its LRC word. -/
theorem exists_codewords {c : Config} {u : TSel} {chars : List Word32}
    (h : ∀ ch ∈ chars, ∃ x, encChar c u ch.toNat = some x) :
    ∃ (cs : List (BitVec u.width)) (l : BitVec u.width),
      chars.map (fun ch => encChar c u ch.toNat) = cs.map some ∧ lrc c u (chars.map BitVec.toNat) = some l := by
  have hcodewords : ∃ cs : List (BitVec u.width), chars.map (fun ch => encChar c u ch.toNat) = cs.map some := by
    induction chars with
    | nil => exact ⟨[], rfl⟩
    | cons ch chars ih =>
      obtain ⟨⟨x, hx⟩, hrest⟩ := List.forall_mem_cons.mp h
      obtain ⟨cs, hcs⟩ := ih hrest
      exact ⟨x :: cs, by rw [List.map_cons, List.map_cons, hx, hcs]⟩
  obtain ⟨cs, hcs⟩ := hcodewords
  exact ⟨cs, _, hcs, lrc_eq_some.mpr ⟨_, codewordXor_of_codewords (List.map_map.trans hcs), rfl⟩⟩

/-- The all-zero word that lies in the padding after `k` bits of codewords, if the padding is long enough (R158). -/
def paddingWords (u : TSel) (k : Nat) : List (BitVec u.width) :=
  if u.width ≤ 8 * ceil8 k - k then [0] else []

theorem paddingWords_length (u : TSel) (k : Nat) :
    (paddingWords u k).length = if u.width ≤ 8 * ceil8 k - k then 1 else 0 := by
  rw [paddingWords, apply_ite List.length]
  rfl

/-- The padding after `n` codewords has at most seven bits, so at most one more codeword lies in it. -/
theorem codewords_in_bytes (u : TSel) (n : Nat) :
    n + (if u.width ≤ 8 * ceil8 (u.width * n) - u.width * n then 1 else 0) = 8 * ceil8 (u.width * n) / u.width := by
  have hwidth : u.width = 7 ∨ u.width = 5 := by cases u <;> decide
  rcases hwidth with hwidth | hwidth
  · rw [hwidth, ceil8]
    split <;> omega
  · rw [hwidth, ceil8]
    split <;> omega

/-- Packed codewords, and the zero word in their padding if one is there, are all that lies in the buffer as a whole. -/
theorem Packed.wholeCodewords_length {u : TSel} {ws : List (BitVec u.width)} {s : State} (h : Packed u ws s) :
    (ws ++ paddingWords u (u.width * ws.length)).length = 8 * s.len / u.width := by
  rw [List.length_append, paddingWords_length, h.len]
  exact codewords_in_bytes u ws.length

theorem Packed.startsWith_padding {u : TSel} {ws : List (BitVec u.width)} {s : State} (h : Packed u ws s) :
    StreamStartsWith s u (ws ++ paddingWords u (u.width * ws.length)) := by
  rw [paddingWords]
  split
  · exact h.starts.concat fun j _ => (h.padding _ (Nat.le_add_right _ j)).trans BitVec.getLsbD_zero.symm
  · exact (List.append_nil ws).symm ▸ h.starts

/-- TRIM takes a framed track from the front of a sequence (R156, R158). -/
theorem trim_framed {chars : List Word32} (hlength : 2 ≤ chars.length) (hhead : chars.head? = some startSentinel)
    (hlast : chars.getLast? = some endSentinel) (hinner : endSentinel ∉ chars.dropLast) (hclean : noEntryMark ∉ chars)
    (after words : List Word32) : trim (chars ++ after) words = .valid chars := by
  obtain ⟨front, rfl⟩ := List.getLast?_eq_some_iff.mp hlast
  rw [List.dropLast_concat] at hinner
  cases front with
  | nil => simp at hlength
  | cons ch mid =>
    obtain rfl : ch = startSentinel := Option.some.inj hhead
    have htrim := trimTakesTheFirstSentinels [] mid after words List.not_mem_nil
      fun h => hinner (List.mem_cons_of_mem _ h)
    have hmid : noEntryMark ∉ mid := fun h => hclean (by simp [h])
    rw [if_neg hmid] at htrim
    rwa [List.append_assoc]

theorem encChar_noEntryMark (c : Config) (u : TSel) : encChar c u noEntryMark.toNat = none :=
  encChar_eq_none.mpr (by cases u <;> decide)

/-- The characters of the decoded codewords of a track are the track. -/
theorem decoded_chars {c : Config} {u : TSel} {chars : List Word32} {cs : List (BitVec u.width)} (hwf : c.TableWF u)
    (hcs : chars.map (fun ch => encChar c u ch.toNat) = cs.map some) :
    (cs.map (decodedCodeword c u)).map Prod.snd = chars := by
  induction chars generalizing cs with
  | nil =>
    obtain rfl := List.map_eq_nil_iff.mp hcs.symm
    rfl
  | cons ch chars ih =>
    obtain ⟨x, cs, rfl, hx, hcs⟩ := List.map_eq_cons_iff.mp hcs.symm
    rw [List.map_cons, List.map_cons, decodedCodeword_of_encChar hwf hx.symm, ih hcs.symm]

/-- The zero word in the padding, if it is there, decodes to `'~'`. -/
theorem decoded_paddingWords {c : Config} {u : TSel} (hwf : c.TableWF u) (k : Nat) :
    ((paddingWords u k).map (decodedCodeword c u)).map Prod.snd =
      if u.width ≤ 8 * ceil8 k - k then [noEntryMark] else [] := by
  rw [paddingWords]
  split
  · rw [List.map_singleton, List.map_singleton, decodedCodeword_of_even hwf (parity_zero _)]
  · rfl

/-- Settles O57: the buffer that ENCODE_TRACK leaves starts with the codewords, the LRC word and the padding's zero
word, as many codewords as it holds as a whole; the last two are even and decode to `'~'`, and TRIM stops before them. -/
theorem trackRoundTrip : Obligations.TrackRoundTrip := by
  intro s check u chars hcap hwf hlength hentries hhead hlast hinner hfit
  obtain ⟨cs, l, hcs, hl⟩ := exists_codewords hentries
  obtain ⟨heven, -⟩ := lrcWordIsEvenAndDecodesToNothing s.cfg u _ l hl
  obtain ⟨e, t, hencode, hcfg, he⟩ := encodeTrackBytes_done check hcap hcs hl hfit
  have hwords : (cs ++ [l]).length = chars.length + 1 := by
    rw [List.length_append, List.length_singleton, codewords_length hcs]
  have helen : e.len ≤ t.cfg.cap := by
    rw [he.len, hwords, hcfg]
    exact hfit
  obtain ⟨v, hdecode⟩ :=
    decodeTrack_of_startsWith (hcfg ▸ hcap) helen he.startsWith_padding he.wholeCodewords_length
  rw [hwords, hcfg] at hdecode
  have hchars : ((cs ++ [l] ++ paddingWords u (u.width * (chars.length + 1))).map (decodedCodeword s.cfg u)).map
      Prod.snd = chars ++ [noEntryMark] ++ (if u.width ≤ 8 * ceil8 (u.width * (chars.length + 1)) -
        u.width * (chars.length + 1) then [noEntryMark] else []) := by
    simp only [List.map_append, List.map_singleton, decoded_chars hwf hcs, decodedCodeword_of_even hwf heven,
      decoded_paddingWords hwf]
  have hclean : noEntryMark ∉ chars := fun h => by
    obtain ⟨x, hx⟩ := hentries noEntryMark h
    exact Option.some_ne_none x (hx.symm.trans (encChar_noEntryMark s.cfg u))
  refine ⟨_, t, _, v, hencode, hdecode, hchars, ?_⟩
  rw [hchars, List.append_assoc]
  exact trim_framed hlength hhead hlast hinner hclean _ _

end Sys2Proof.Machine
end

section
/-! SUPPORT. The statements about the statuses (60_exceptions.md): when each status other than OK is raised, that a command
raises at most one, and that raising it is all that its command then does. -/

namespace Sys2Proof.Machine

/-! ### The conditions of the statuses (R166) -/

/-- The rows of R166: a status other than OK, the commands that raise it, or no command at all, and the condition.
`runCommand_answer` ties it to the model. -/
inductive Raises (s : State) : Except Illegal Instr → Status → Prop
  | eod {n : Nat} (hshort : 8 * s.len < s.cursor + n) : Raises s (.ok (.rd n)) .eod
  | enc {u : TSel} {ch : Word32} (hnone : encChar s.cfg u ch.toNat = none) : Raises s (.ok (.enc u ch)) .invalidChar
  | lrcadd {u : TSel} {ch : Word32} (hnone : encChar s.cfg u ch.toNat = none) :
      Raises s (.ok (.lrcadd u ch)) .invalidChar
  | overflow {n : Nat} {value : Word32} (hover : s.cfg.cap < ceil8 (s.cursor + n)) :
      Raises s (.ok (.wr n value)) .overflow
  | illegal (e : Illegal) : Raises s (.error e) .illegal

section Raises

variable {s : State} {c : Except Illegal Instr}

/-- No command has two statuses to choose from. -/
theorem Raises.unique {st st' : Status} (h : Raises s c st) (h' : Raises s c st') : st = st' := by
  cases h with
  | eod | enc | lrcadd | overflow | illegal => cases h'; rfl

theorem raises_eod_iff : Raises s c .eod ↔ ∃ n, c = .ok (.rd n) ∧ 8 * s.len < s.cursor + n := by
  constructor
  · intro h
    cases h with
    | eod hshort => exact ⟨_, rfl, hshort⟩
  · rintro ⟨n, rfl, hshort⟩
    exact .eod hshort

/-- The lookup has no answer exactly outside the table's range (`encChar_eq_none`). -/
theorem raises_invalidChar_iff : Raises s c .invalidChar ↔
    ∃ u ch, (c = .ok (.enc u ch) ∨ c = .ok (.lrcadd u ch)) ∧ (ch.toNat < u.base ∨ u.base + u.count ≤ ch.toNat) := by
  constructor
  · intro h
    cases h with
    | enc hnone => exact ⟨_, _, .inl rfl, encChar_eq_none.mp hnone⟩
    | lrcadd hnone => exact ⟨_, _, .inr rfl, encChar_eq_none.mp hnone⟩
  · rintro ⟨u, ch, rfl | rfl, hout⟩
    · exact .enc (encChar_eq_none.mpr hout)
    · exact .lrcadd (encChar_eq_none.mpr hout)

theorem raises_overflow_iff :
    Raises s c .overflow ↔ ∃ n value, c = .ok (.wr n value) ∧ s.cfg.cap < ceil8 (s.cursor + n) := by
  constructor
  · intro h
    cases h with
    | overflow hover => exact ⟨_, _, rfl, hover⟩
  · rintro ⟨n, value, rfl, hover⟩
    exact .overflow hover

theorem raises_illegal_iff : Raises s c .illegal ↔ ∃ e, c = .error e := by
  constructor
  · intro h
    cases h with
    | illegal e => exact ⟨e, rfl⟩
  · rintro ⟨e, rfl⟩
    exact .illegal e

end Raises

/-! ### The answer to a command word (R61, R170) -/

/-- The next states of a word that decodes to `c`: no condition holds and the response is OK, or one holds and its status
is raised. -/
inductive Answer (s : State) (c : Except Illegal Instr) : State → Prop
  | ok {t : State} (d : Word32) (hquiet : ∀ st, ¬ Raises s c st) (hresponse : t.responses = s.responses ++ [⟨.ok, d⟩]) :
      Answer s c t
  | raised {st : Status} (hraises : Raises s c st) : Answer s c (s.raise st)

theorem memWrite_responses {s u : State} {k n : Nat} {v : Word32} (h : memWrite s k n v = some u) :
    u.responses = s.responses := by
  rw [memWrite_fields h]

/-- The conditions of RD and WR are false where MemRead and MemWrite are defined; ENC and LRCADD have an entry or none; no
other command has a condition. -/
theorem exec_answer {i : Instr} {s t : State} (h : exec i s = .next t) : Answer s (.ok i) t := by
  cases i with
  | rd n =>
    obtain ⟨hshort, rfl⟩ | ⟨d, hread, rfl⟩ := execRd_cases h
    · exact .raised (.eod hshort)
    · obtain ⟨-, -, hremain⟩ := (memRead_eq_some.mp hread).1
      refine .ok d (fun _ hraises => ?_) rfl
      cases hraises with
      | eod hshort => exact Nat.not_lt.mpr hremain hshort
  | wr n value =>
    obtain ⟨hover, rfl⟩ | ⟨u, hwrite, rfl⟩ := execWr_cases h
    · exact .raised (.overflow hover)
    · obtain ⟨-, -, -, -, hfit⟩ := (memWrite_eq_some.mp hwrite).1
      refine .ok 0 (fun _ hraises => ?_) (congrArg (· ++ [⟨.ok, 0⟩]) (memWrite_responses hwrite) :)
      cases hraises with
      | overflow hover => exact Nat.not_lt.mpr hfit hover
  | enc u ch =>
    obtain ⟨x, hx, he⟩ | ⟨hnone, he⟩ := execEnc_cases u ch s <;> obtain rfl := Host.Outcome.next.inj (he.symm.trans h)
    · refine .ok (x.setWidth 32) (fun _ hraises => ?_) rfl
      cases hraises with
      | enc hnone => exact Option.some_ne_none x (hx.symm.trans hnone)
    · exact .raised (.enc hnone)
  | lrcadd u ch =>
    obtain ⟨x, hx, he⟩ | ⟨hnone, he⟩ := execLrcadd_cases u ch s <;> obtain rfl := Host.Outcome.next.inj (he.symm.trans h)
    · refine .ok 0 (fun _ hraises => ?_) rfl
      cases hraises with
      | lrcadd hnone => exact Option.some_ne_none x (hx.symm.trans hnone)
    · exact .raised (.lrcadd hnone)
  | seek | pos | len | clr | dec | lrcclr | lrcget =>
    obtain rfl := Host.Outcome.next.inj h
    exact .ok _ (fun _ hraises => nomatch hraises) rfl

theorem runCommand_answer {w : CmdWord} {s t : State} (h : runCommand w s = .next t) : Answer s (decode w) t := by
  cases hw : decode w with
  | ok i =>
    rw [runCommand_of_ok hw] at h
    exact exec_answer h
  | error e =>
    obtain rfl := Host.Outcome.next.inj ((runCommand_of_error hw s).symm.trans h)
    exact .raised (.illegal e)

theorem step_answer {s t : State} {w : CmdWord} {rest : List HostMove} (hmoves : s.moves = .command w :: rest)
    (h : step s = .next t) : Answer { s with moves := rest } (decode w) t :=
  runCommand_answer ((step_command hmoves).symm.trans h)

section Answer

variable {s t : State} {c : Except Illegal Instr} {r : Response}

/-- The response that was added has a status exactly when that status is raised. -/
theorem Answer.status_iff (h : Answer s c t) (hr : t.responses = s.responses ++ [r]) {st : Status} (hst : st ≠ .ok) :
    r.status = st ↔ Raises s c st := by
  cases h with
  | ok d hquiet hresponse =>
    obtain rfl : r = ⟨.ok, d⟩ := by simpa using hr.symm.trans hresponse
    exact ⟨fun hok => absurd hok.symm hst, fun hraises => absurd hraises (hquiet st)⟩
  | @raised st' hraises =>
    obtain rfl : r = ⟨st', 0⟩ := by simpa using hr.symm
    exact ⟨fun heq => heq ▸ hraises, hraises.unique⟩

/-- A response other than OK has no data, and adding it is all that happened (R170). -/
theorem Answer.eq_respond (h : Answer s c t) (hr : t.responses = s.responses ++ [r]) (hne : r.status ≠ .ok) :
    r.data = 0 ∧ t = s.respond r := by
  cases h with
  | ok d hquiet hresponse =>
    obtain rfl : r = ⟨.ok, d⟩ := by simpa using hr.symm.trans hresponse
    exact absurd rfl hne
  | @raised st hraises =>
    obtain rfl : r = ⟨st, 0⟩ := by simpa using hr.symm
    exact ⟨rfl, rfl⟩

end Answer

/-! ### The statements (R166, R170, R171) -/

/-- Settles O9: such a word decodes to no command (`no_row_matches_iff`). -/
theorem unmatchedWordIsAnsweredIllegal : Obligations.UnmatchedWordIsAnsweredIllegal := by
  intro s w rest hmoves hnone
  obtain ⟨e, he⟩ := no_row_matches_iff.mp hnone
  exact (step_command hmoves).trans (runCommand_of_error he _)

/-- Settles O18. -/
theorem failedCommandChangesNothing : Obligations.FailedCommandChangesNothing :=
  fun _ _ _ _ _ hmoves hstep hr hne => (step_answer hmoves hstep).eq_respond hr hne

/-- Settles O19: each clause is a row of R166, `Raises`, with its condition written out. -/
theorem eachStatusIsRaisedExactlyWhenItsConditionHolds :
    Obligations.EachStatusIsRaisedExactlyWhenItsConditionHolds := by
  intro s t w rest r hmoves hstep hr
  have hanswer := step_answer hmoves hstep
  exact ⟨(hanswer.status_iff hr (by decide)).trans raises_eod_iff,
    (hanswer.status_iff hr (by decide)).trans raises_invalidChar_iff,
    (hanswer.status_iff hr (by decide)).trans raises_overflow_iff,
    (hanswer.status_iff hr (by decide)).trans raises_illegal_iff,
    fun hne => (hanswer.eq_respond hr hne).1⟩

end Sys2Proof.Machine
end

section
/-! SUPPORT. The statements about reset (70_reset_and_hazards.md): the step with no move pending, the step on a reset, and
the two commands that together do what a reset does. -/

namespace Sys2Proof.Machine

/-! ### The step without a command word (R185, R186) -/

theorem step_waiting {s : State} (h : s.moves = []) : step s = .next s := by
  rw [step, h]

theorem step_reset {s : State} {abandoned : Option CmdWord} {rest : List HostMove}
    (h : s.moves = .reset abandoned :: rest) : step s = .next (State.hostReset { s with moves := rest }) := by
  rw [step, h]

@[simp] theorem hostReset_bufBytes (s : State) : s.hostReset.bufBytes = [] := rfl

/-- Settles O10. -/
theorem blockWaitsWithoutAMove : Obligations.BlockWaitsWithoutAMove :=
  fun _ => step_waiting

/-- Settles O11: the fields of `State.hostReset`, after `step_reset`. -/
theorem resetMoveEmptiesTheBlock : Obligations.ResetMoveEmptiesTheBlock := by
  intro s abandoned rest hmoves
  refine ⟨_, step_reset hmoves, ?_⟩
  simp

/-! ### CLR and LRCCLR (R187, R188) -/

/-- Settles O38: CLR writes the codec and LRCCLR writes `ACC`, so in either order the two reset all four pieces of
state, and each adds its own response. -/
theorem clearingEverythingIsReset : Obligations.ClearingEverythingIsReset := by
  intro s rest i j horder hmoves
  rw [List.append_cons]
  obtain ⟨rfl, rfl⟩ | ⟨rfl, rfl⟩ := horder
  · have hclr := run_command 1 (i := .clr) rfl hmoves (exec_clr _)
    exact hclr.trans (run_command 0 (i := .lrcclr) rfl rfl (exec_lrcclr _))
  · have hlrcclr := run_command 1 (i := .lrcclr) rfl hmoves (exec_lrcclr _)
    exact hlrcclr.trans (run_command 0 (i := .clr) rfl rfl (exec_clr _))

end Sys2Proof.Machine
end
